-- ==== Sys2Proof/Word.lean ====
section
/-! DEFINITION. Word.lean: the machine's words and addresses (spec 00_scope.md R5, R6). There are no bits and no bytes.
The other files write `Int` for a word and `Nat` for an address, the types these names stand for, so that integer
arithmetic tactics see them. -/

namespace Sys2Proof

/-- A word: memory cell, instruction word, operand, input or output value, `ip` and `rb` (R5: "hold a
mathematical integer"). Arithmetic on it is exact (R9, R92). -/
abbrev Word := Int

/-- A cell's address (R6: "Addresses are the non-negative integers"). A computed address is a word until the
negative-address check of R44 has passed. -/
abbrev Addr := Nat

end Sys2Proof
end

