-- ==== Sys2Proof/Config.lean ====
section
/-! DEFINITION. Config.lean: what is fixed for the machine. The spec leaves no parameter open (00_scope.md R8:
"Parameters left open. None."), so there is no free value here: every constant is the spec's. -/

namespace Sys2Proof.Config

/-- What a cell that nothing has written reads as (R41: "is 0 everywhere above it"; R35, mem[i] for i ≥ L). -/
def unwritten : Int := 0

/-- The entry point (R181: "the entry point is a fixed address"; R35). -/
def entryPoint : Int := 0

/-- The relative base at reset (R22, R35: "initial value 0"). -/
def initialBase : Int := 0

end Sys2Proof.Config
end

