-- ==== Sys2Proof/Syntax.lean ====
section
/-! DEFINITION. Syntax.lean: the ten instructions (30_encoding.md R62), one constructor per row of
spec/opcode_table.json, with the modes and operand words of their arguments as fields. -/

namespace Sys2Proof

/-- The three addressing modes (R66). -/
inductive Mode where
  | position
  | immediate
  | relative
  deriving DecidableEq, Repr

/-- The role of an argument: a value is read from it, or it names the cell written (R63). -/
inductive Role where
  | read
  | write
  deriving DecidableEq, Repr

/-- One argument: its mode and its operand word, "taken as it stands" (R61). -/
structure Arg where
  mode : Mode
  raw  : Int
  deriving DecidableEq, Repr

/-- The ten operations (R62). -/
inductive Op where
  | add | mul | inp | out | jt | jf | lt | eq | arb | hlt
  deriving DecidableEq, Repr

/-- The roles column of R62. -/
def Op.roles : Op → List Role
  | .add | .mul | .lt | .eq => [.read, .read, .write]
  | .inp => [.write]
  | .out | .arb => [.read]
  | .jt | .jf => [.read, .read]
  | .hlt => []

/-- The arity column of R62. -/
def Op.arity (o : Op) : Nat := o.roles.length

/-- An instruction: the row of the opcode table and its arguments in order. -/
inductive Instr where
  | add (a b d : Arg)
  | mul (a b d : Arg)
  | inp (d : Arg)
  | out (a : Arg)
  | jt  (a b : Arg)
  | jf  (a b : Arg)
  | lt  (a b d : Arg)
  | eq  (a b d : Arg)
  | arb (a : Arg)
  | hlt
  deriving DecidableEq, Repr

namespace Instr

/-- The instruction's operation. -/
def op : Instr → Op
  | add _ _ _ => .add
  | mul _ _ _ => .mul
  | inp _ => .inp
  | out _ => .out
  | jt _ _ => .jt
  | jf _ _ => .jf
  | lt _ _ _ => .lt
  | eq _ _ _ => .eq
  | arb _ => .arb
  | hlt => .hlt

/-- The arguments, in argument order. -/
def args : Instr → List Arg
  | add a b d | mul a b d | lt a b d | eq a b d => [a, b, d]
  | jt a b | jf a b => [a, b]
  | inp a | out a | arb a => [a]
  | hlt => []

/-- The length in words, `1 + n` (R61, R74). -/
def length (i : Instr) : Nat := 1 + i.op.arity

/-- The pseudo-instruction `JMP t`, that is `JT #1, t` (R76). -/
def jmp (t : Arg) : Instr := jt ⟨.immediate, 1⟩ t

/-- The pseudo-instruction `MOV s, d`, that is `ADD s, #0, d` (R76). -/
def mov (s d : Arg) : Instr := add s ⟨.immediate, 0⟩ d

end Instr

end Sys2Proof
end

