-- ==== Sys2Proof/WellFormed.lean ====
section
/-! DEFINITION. WellFormed.lean: which instruction terms are instructions of the machine. The type `Instr` already
holds the arity and the three modes; what is left to check is that no write-role argument is immediate
(30_encoding.md R71, 20_memory.md R50). -/

namespace Sys2Proof

/-- A mode a write-role argument may have (R71: immediate is invalid there). -/
def Mode.targets : Mode → Bool
  | .immediate => false
  | .position | .relative => true

/-- The instruction's write-role argument with its index (R63: always the last argument). -/
def Instr.target? : Instr → Option (Nat × Arg)
  | .add _ _ d | .mul _ _ d | .lt _ _ d | .eq _ _ d => some (3, d)
  | .inp d => some (1, d)
  | .out _ | .jt _ _ | .jf _ _ | .arb _ | .hlt => none

/-- The instruction has an encoding: its write-role argument, if it has one, is not immediate (R71). -/
def Instr.wellFormed (i : Instr) : Bool :=
  match i.target? with
  | some (_, d) => d.mode.targets
  | none => true

end Sys2Proof
end

