-- ==== Sys2Proof/Decode.lean ====
section
/-! DEFINITION. Decode.lean: the mode decoder (30_encoding.md R60 to R74), total on every integer, and after it the
encoder (R75). The instruction word is read in decimal; operand words are never decoded. -/

namespace Sys2Proof

/-- `digit(w, k)`: the decimal digit of weight `10^k` (R10). -/
def digit (w k : Nat) : Nat := w / 10 ^ k % 10

/-- `digits[hi:lo](w)` (R10). -/
def digits (w hi lo : Nat) : Nat := w / 10 ^ lo % 10 ^ (hi - lo + 1)

/-- `above(w, k)`: everything from digit `k` upward (R10). -/
def above (w k : Nat) : Nat := w / 10 ^ k

/-- The OP column of R62. -/
def Op.code : Op → Nat
  | .add => 1
  | .mul => 2
  | .inp => 3
  | .out => 4
  | .jt => 5
  | .jf => 6
  | .lt => 7
  | .eq => 8
  | .arb => 9
  | .hlt => 99

/-- The operation an opcode selects (R62); every other value is unknown (R69). -/
def Op.ofCode? : Nat → Option Op
  | 1 => some .add
  | 2 => some .mul
  | 3 => some .inp
  | 4 => some .out
  | 5 => some .jt
  | 6 => some .jf
  | 7 => some .lt
  | 8 => some .eq
  | 9 => some .arb
  | 99 => some .hlt
  | _ => none

/-- The mode digits of R66. -/
def Mode.digit : Mode → Nat
  | .position => 0
  | .immediate => 1
  | .relative => 2

/-- The mode a digit selects; 3 to 9 select none (R66). -/
def Mode.ofDigit? : Nat → Option Mode
  | 0 => some .position
  | 1 => some .immediate
  | 2 => some .relative
  | _ => none

/-- Why a word is no instruction word (R68 to R71). -/
inductive DecodeFault where
  /-- Negative word, unknown opcode, or a digit above the last mode digit (R68, R69, R70). -/
  | unknownOpcode
  /-- The first argument whose mode digit is above 2, or is 1 on a write-role argument (R71). -/
  | invalidMode (arg digit : Nat)
  deriving DecidableEq, Repr

/-- What the mode decoder reads from an instruction word: the operation and its arguments' modes (R72). -/
structure Head where
  op    : Op
  modes : List Mode
  deriving DecidableEq, Repr

/-- The mode of argument `k` with the given role (R65, R71). -/
def decodeMode (w k : Nat) (r : Role) : Except DecodeFault Mode :=
  match Mode.ofDigit? (digit w (k + 1)) with
  | none => .error (.invalidMode k (digit w (k + 1)))
  | some m => if r = .write ∧ m = .immediate then .error (.invalidMode k 1) else .ok m

/-- The modes of the arguments from `k` on, in argument order; the first that fails is reported (R71). -/
def decodeModes (w : Nat) : Nat → List Role → Except DecodeFault (List Mode)
  | _, [] => .ok []
  | k, r :: rs =>
    match decodeMode w k r with
    | .error e => .error e
    | .ok m =>
      match decodeModes w (k + 1) rs with
      | .error e => .error e
      | .ok ms => .ok (m :: ms)

/-- The mode decoder: `decode(w)` of R72. It reads only the instruction word. -/
def decodeHead (w : Int) : Except DecodeFault Head :=
  if w < 0 then .error .unknownOpcode
  else
    match Op.ofCode? (digits w.toNat 1 0) with
    | none => .error .unknownOpcode
    | some o =>
      if above w.toNat (o.arity + 2) ≠ 0 then .error .unknownOpcode
      else
        match decodeModes w.toNat 1 o.roles with
        | .error e => .error e
        | .ok ms => .ok ⟨o, ms⟩

/-- Argument `k` of a decoded word, its operand word read at offset `k` from the instruction word (R61). -/
def Head.arg (h : Head) (raw : Nat → Int) (k : Nat) : Arg := ⟨h.modes.getD (k - 1) .position, raw k⟩

/-- The instruction that a decoded word and the words after it make (R61, R62). -/
def Head.build (h : Head) (raw : Nat → Int) : Instr :=
  match h.op with
  | .add => .add (h.arg raw 1) (h.arg raw 2) (h.arg raw 3)
  | .mul => .mul (h.arg raw 1) (h.arg raw 2) (h.arg raw 3)
  | .inp => .inp (h.arg raw 1)
  | .out => .out (h.arg raw 1)
  | .jt => .jt (h.arg raw 1) (h.arg raw 2)
  | .jf => .jf (h.arg raw 1) (h.arg raw 2)
  | .lt => .lt (h.arg raw 1) (h.arg raw 2) (h.arg raw 3)
  | .eq => .eq (h.arg raw 1) (h.arg raw 2) (h.arg raw 3)
  | .arb => .arb (h.arg raw 1)
  | .hlt => .hlt

/-- Decoding where the word at offset `k` from the instruction word is `raw k`. -/
def decodeAt (raw : Nat → Int) : Except DecodeFault Instr :=
  match decodeHead (raw 0) with
  | .error e => .error e
  | .ok h => .ok (h.build raw)

/-- Decoding a list of words. Words past its end read as an unwritten cell does (R53: "its missing operand
words read as 0"), so decoding is total on every list. -/
def decode (ws : List Int) : Except DecodeFault Instr := decodeAt fun k => ws.getD k Config.unwritten

/-- The number the mode digits make, argument 1's least significant (R60, R65). -/
def modeDigits : List Mode → Nat
  | [] => 0
  | m :: ms => m.digit + 10 * modeDigits ms

/-- The instruction word of an operation and its modes: `op + 100*m1 + 1000*m2 + 10000*m3` (R75). -/
def Head.word (h : Head) : Int := ((h.op.code + 100 * modeDigits h.modes : Nat) : Int)

/-- An instruction's operation and modes. -/
def Instr.head (i : Instr) : Head := ⟨i.op, i.args.map Arg.mode⟩

/-- The instruction word of an instruction (R75). -/
def Instr.word (i : Instr) : Int := i.head.word

/-- The encoder: the instruction word, then "each operand word follows in order" (R75). -/
def encode (i : Instr) : List Int := i.word :: i.args.map Arg.raw

/-- R73's table of the legal instruction words of each operation, as the spec lists them. -/
def legalWords : Op → List Int
  | .add => [1, 101, 201, 1001, 1101, 1201, 2001, 2101, 2201,
      20001, 20101, 20201, 21001, 21101, 21201, 22001, 22101, 22201]
  | .mul => [2, 102, 202, 1002, 1102, 1202, 2002, 2102, 2202,
      20002, 20102, 20202, 21002, 21102, 21202, 22002, 22102, 22202]
  | .inp => [3, 203]
  | .out => [4, 104, 204]
  | .jt => [5, 105, 205, 1005, 1105, 1205, 2005, 2105, 2205]
  | .jf => [6, 106, 206, 1006, 1106, 1206, 2006, 2106, 2206]
  | .lt => [7, 107, 207, 1007, 1107, 1207, 2007, 2107, 2207,
      20007, 20107, 20207, 21007, 21107, 21207, 22007, 22107, 22207]
  | .eq => [8, 108, 208, 1008, 1108, 1208, 2008, 2108, 2208,
      20008, 20108, 20208, 21008, 21108, 21208, 22008, 22108, 22208]
  | .arb => [9, 109, 209]
  | .hlt => [99]

/-- What the decoder reads from a word the host numbers in bits, operand words zero. A word has no width here, so
all of `w` is the instruction word and `nbits` tells nothing more (log entry 3). -/
def decodeTableWord (_nbits w : Nat) : Option Instr :=
  match decode [(w : Int)] with
  | .ok i => some i
  | .error _ => none

end Sys2Proof
end

