-- ==== Sys2Proof/Machine/State.lean ====
section
/-! DEFINITION. Machine/State.lean: the state of one instance (10_state.md R20), the fault record (60_exceptions.md
R152), the events and results of a step (30_encoding.md R77), and the ways a step can stop. -/

namespace Sys2Proof.Machine

/-- The core's own fault causes (R151, codes 2 to 4). -/
inductive FaultCode where
  | unknownOpcode
  | invalidAddressingMode
  | negativeAddress
  deriving DecidableEq, Repr

/-- The fault record (R152). -/
structure FaultRecord where
  /-- the cause -/
  code   : FaultCode
  /-- the address of the offending instruction, or the negative ip itself for a fetch fault -/
  ip     : Int
  /-- the instruction word, none for a fetch fault -/
  word   : Option Int
  /-- 0 for the instruction word or the fetch, else the index of the argument at fault -/
  arg    : Nat
  /-- the offending mode digit or the negative address -/
  detail : Option Int
  deriving DecidableEq, Repr

/-- The instance status (R23). -/
inductive Status where
  | ready
  | halted
  | faulted (f : FaultRecord)
  deriving DecidableEq, Repr

/-- Memory: the cells that do not read as `Config.unwritten`, by rising address (R41; log entry 1). -/
abbrev Memory := List (Nat × Int)

/-- The architectural state of one instance (R20: "this tuple, and nothing else"). -/
structure State where
  /-- the word memory (R40, R41) -/
  mem     : Memory
  /-- the instruction pointer (R21) -/
  ip      : Int
  /-- the relative base (R22) -/
  rb      : Int
  /-- the pending-input queue, oldest first (R26) -/
  inq     : List Int
  /-- the last value emitted (R27) -/
  lastOut : Option Int
  /-- Ready, Halted or Faulted (R23 to R25) -/
  status  : Status
  deriving DecidableEq, Repr

/-- The event a step ends with (R77, R80). -/
inductive Event where
  | continue
  | output (v : Int)
  | needsInput
  | halted
  | fault (f : FaultRecord)
  deriving DecidableEq, Repr

/-- A step's result: its event and the state it leaves (R77). -/
structure StepResult where
  event : Event
  state : State
  deriving DecidableEq, Repr

/-- The result of a host-port call (R165). -/
inductive ResumeResult where
  | output (v : Int)
  | needsInput
  | halted
  | fault (f : FaultRecord)
  | resumeHalted
  deriving DecidableEq, Repr

/-- Why the machine stops with a fault. -/
inductive Fault where
  /-- Raised by `step` alone, in a state that has already faulted: the instance never steps again and reports the
  same record (R154, R168; log entry 2). Safe: the spec's instance makes no further step either. The raising step
  itself is a next state whose status is `faulted f`. -/
  | faulted (f : FaultRecord)
  deriving DecidableEq, Repr

/-- Why a step is refused. -/
inductive Refusal where
  /-- Raised by `step` alone, in a halted state: "no further resumption is permitted" (R167; log entry 2). Safe: the
  spec's instance makes no further step either. -/
  | resumeHalted
  /-- Raised by an `exec` arm of an instruction that has no meaning yet. Safe. No arm uses it: all ten are modelled. -/
  | notModelled (mnemonic : String)
  deriving DecidableEq, Repr

/-- The state right after reset (R35, R181, R182): `construct` of the empty program image (R185), so no memory cell is
listed. A program enters by `State.construct` (log entry 4). -/
def State.reset : State where
  mem     := []
  ip      := Config.entryPoint
  rb      := Config.initialBase
  inq     := []
  lastOut := none
  status  := .ready

end Sys2Proof.Machine
end

