-- ==== Sys2Proof/Machine/Ops.lean ====
section
/-! DEFINITION. Machine/Ops.lean: the named operations over memory and registers (20_memory.md R42, R43), construction
(70_reset_and_hazards.md R180), raising a fault (60_exceptions.md R150), the results of a step (30_encoding.md R77) and
the fetch unit (R78). -/

namespace Sys2Proof.Machine

/-- `MemRead(a, 1)` (R42). -/
def Memory.read : Memory → Nat → Int
  | [], _ => Config.unwritten
  | (b, v) :: m, a => if a = b then v else Memory.read m a

/-- The cell `(a, v)` put before `m`, left out if it reads as an unwritten cell does. -/
def Memory.cons (a : Nat) (v : Int) (m : Memory) : Memory := if v = Config.unwritten then m else (a, v) :: m

/-- `MemWrite(a, 1, v)` (R43), keeping the canonical form. -/
def Memory.write : Memory → Nat → Int → Memory
  | [], a, v => Memory.cons a v []
  | (b, u) :: m, a, v =>
    if a < b then Memory.cons a v ((b, u) :: m)
    else if a = b then Memory.cons a v m
    else (b, u) :: Memory.write m a v

/-- The canonical form: addresses strictly rise, and no listed cell reads as an unwritten one does. -/
abbrev Memory.wf (m : Memory) : Prop :=
  m.Pairwise (fun x y => x.1 < y.1) ∧ ∀ c ∈ m, c.2 ≠ Config.unwritten

/-- Words written to the cells from `a` on, in order. -/
def Memory.writeWords (m : Memory) (a : Nat) : List Int → Memory
  | [] => m
  | w :: ws => Memory.writeWords (Memory.write m a w) (a + 1) ws

/-- `construct(P)` (R180): a fresh state, the image copied to address 0 on (R35). -/
def State.construct (image : List Int) : State :=
  { State.reset with mem := Memory.writeWords [] 0 image }

/-- The word at the address a checked integer names. -/
def State.load (s : State) (a : Nat) : Int := Memory.read s.mem a

/-- `MemWrite(a, v)` on the state. -/
def State.store (s : State) (a : Nat) (v : Int) : State := { s with mem := Memory.write s.mem a v }

/-- `ip <- v`. -/
def State.setIp (s : State) (v : Int) : State := { s with ip := v }

/-- ip moves past an instruction of `n` words (R64). -/
def State.advance (s : State) (n : Nat) : State := s.setIp (s.ip + n)

/-- `rb <- v`. -/
def State.setRb (s : State) (v : Int) : State := { s with rb := v }

/-- `lastOut <- some v`. -/
def State.setLastOut (s : State) (v : Int) : State := { s with lastOut := some v }

/-- `status <- st`. -/
def State.setStatus (s : State) (st : Status) : State := { s with status := st }

/-- `inq <- q`. -/
def State.setInq (s : State) (q : List Int) : State := { s with inq := q }

/-- The halted flag (R24). -/
def State.halted (s : State) : Bool := s.status = .halted

/-- The cause codes of the core's faults (R151). -/
def FaultCode.number : FaultCode → Nat
  | .unknownOpcode => 2
  | .invalidAddressingMode => 3
  | .negativeAddress => 4

/-- The cause code a host-port result carries, if it is an error (R151). -/
def ResumeResult.errorCode? : ResumeResult → Option Nat
  | .fault f => some f.code.number
  | .resumeHalted => some 5
  | .output _ | .needsInput | .halted => none

/-- Taking a fault (R150, R82): the only change is `status`, which becomes `Faulted(f)`. There is no other entry: "A
fault transfers no control inside the core" (R158), and none returns from one (R159). -/
def State.raise (f : FaultRecord) (s : State) : State := s.setStatus (.faulted f)

/-- A step that raises `f` (R150). -/
def StepResult.raise (f : FaultRecord) (s : State) : StepResult := ⟨.fault f, s.raise f⟩

/-- A step that completes without suspending (R77). -/
def StepResult.continue (s : State) : StepResult := ⟨.continue, s⟩

/-- What the host sees of a step's result: every result of R77 leaves a state, so every one is a next state. -/
def StepResult.outcome (r : StepResult) : Host.Outcome State Fault Refusal := .next r.state

/-- The record of a decode fault at `ip` of the word `w` (R68 to R71, R152). -/
def DecodeFault.record (ip w : Int) : DecodeFault → FaultRecord
  | .unknownOpcode => ⟨.unknownOpcode, ip, some w, 0, none⟩
  | .invalidMode k d => ⟨.invalidAddressingMode, ip, some w, k, some d⟩

/-- The record of a fetch at the negative `ip` (R78, R152). -/
def fetchFault (ip : Int) : FaultRecord := ⟨.negativeAddress, ip, none, 0, some ip⟩

/-- The fetch unit (R78): the instruction word at `ip`. -/
def fetch (mem : Memory) (ip : Int) : Except FaultRecord Int :=
  if ip < 0 then .error (fetchFault ip) else .ok (Memory.read mem ip.toNat)

/-- Fetch and decode: the instruction whose words start at `ip`, its operand words read at `ip + k` (R78, R72, R79),
or the fault they raise. -/
def fetchDecode (s : State) : Except FaultRecord Instr :=
  match fetch s.mem s.ip with
  | .error f => .error f
  | .ok w =>
    match decodeHead w with
    | .error e => .error (DecodeFault.record s.ip w e)
    | .ok h => .ok (h.build fun k => s.load (s.ip.toNat + k))

end Sys2Proof.Machine
end

