-- ==== Sys2Proof/Machine/Operands.lean ====
section
/-! DEFINITION. Machine/Operands.lean: the addressing unit (20_memory.md R46 to R50) and the evaluation of an
instruction's arguments in argument order (30_encoding.md R79). Evaluation only reads (R79). -/

namespace Sys2Proof.Machine

/-- The record of an argument whose address is negative (R46, R48, R49, R152). -/
def addressFault (ip w : Int) (k : Nat) (a : Int) : FaultRecord := ⟨.negativeAddress, ip, some w, k, some a⟩

/-- The record of an immediate write-role argument (R50, R71). -/
def targetModeFault (ip w : Int) (k : Nat) : FaultRecord :=
  DecodeFault.record ip w (.invalidMode k Mode.immediate.digit)

/-- The address an argument computes: `rawk` in mode 0, `rb + rawk` in mode 2 (R46, R48, R49). An immediate argument
computes none. -/
def Arg.address? (rb : Int) (a : Arg) : Option Int :=
  match a.mode with
  | .position => some a.raw
  | .immediate => none
  | .relative => some (rb + a.raw)

/-- The negative-address check of R44. -/
def checkAddress (ip w : Int) (k : Nat) (a : Int) : Except FaultRecord Nat :=
  if a < 0 then .error (addressFault ip w k a) else .ok a.toNat

/-- The value of read argument `k` (R46, R47, R48). -/
def readArg (s : State) (w : Int) (k : Nat) (a : Arg) : Except FaultRecord Int :=
  match Arg.address? s.rb a with
  | none => .ok a.raw
  | some x =>
    match checkAddress s.ip w k x with
    | .error f => .error f
    | .ok c => .ok (s.load c)

/-- The target address of write argument `k` (R49). It is never dereferenced. An immediate one never gets here from the
decoder, which raises InvalidAddressingMode (R50, R71); so does this. -/
def writeArg (s : State) (w : Int) (k : Nat) (a : Arg) : Except FaultRecord Nat :=
  match Arg.address? s.rb a with
  | none => .error (targetModeFault s.ip w k)
  | some x => checkAddress s.ip w k x

/-- An immediate write argument is refused before any argument is evaluated (R155: modes before addresses). -/
def checkTarget (s : State) (w : Int) (k : Nat) (a : Arg) : Except FaultRecord Unit :=
  if a.mode.targets then .ok () else .error (targetModeFault s.ip w k)

/-- The arguments of a R,R instruction. -/
def evalRR (s : State) (w : Int) (a b : Arg) : Except FaultRecord (Int × Int) :=
  match readArg s w 1 a with
  | .error f => .error f
  | .ok v1 =>
    match readArg s w 2 b with
    | .error f => .error f
    | .ok v2 => .ok (v1, v2)

/-- The arguments of a R,R,W instruction. -/
def evalRRW (s : State) (w : Int) (a b d : Arg) : Except FaultRecord (Int × Int × Nat) :=
  match checkTarget s w 3 d with
  | .error f => .error f
  | .ok () =>
    match evalRR s w a b with
    | .error f => .error f
    | .ok (v1, v2) =>
      match writeArg s w 3 d with
      | .error f => .error f
      | .ok t => .ok (v1, v2, t)

/-- The shape of ADD, MUL, LT and EQ: two values read, one cell written with what `alu` makes of them, ip past the four
words (R45, R80, R81). -/
def binary (w : Int) (a b d : Arg) (alu : Int → Int → Int) (s : State) : StepResult :=
  match evalRRW s w a b d with
  | .error f => .raise f s
  | .ok (v1, v2, t) => .continue ((s.store t (alu v1 v2)).advance 4)

/-- The shape of JT and JF: ip becomes the second value where `taken` holds of the first, else moves past the three
words (R80). -/
def jump (w : Int) (a b : Arg) (taken : Int → Bool) (s : State) : StepResult :=
  match evalRR s w a b with
  | .error f => .raise f s
  | .ok (v1, v2) => .continue (if taken v1 then s.setIp v2 else s.advance 3)

end Sys2Proof.Machine
end

