-- ==== Sys2Proof/Machine/Flags.lean ====
section
/-! DEFINITION. Machine/Flags.lean: the machine has no flags (10_state.md R29). What other machines keep in flags, this
one computes as a word or tests against zero: the comparison results (43_compare.md R122) and the jump conditions
(42_jumps.md R110, R111) stand here. -/

namespace Sys2Proof.Machine

/-- A comparison result: "exactly the integers 1 (true) and 0 (false)" (R122). -/
def truthWord (b : Bool) : Int := if b then 1 else 0

/-- The result of LT: the signed exact comparison (R120). -/
def lessWord (v1 v2 : Int) : Int := truthWord (decide (v1 < v2))

/-- The result of EQ (R121). -/
def equalWord (v1 v2 : Int) : Int := truthWord (decide (v1 = v2))

/-- The condition of JT: "Any non-zero v1 is true" (R110). -/
def testsTrue (v : Int) : Bool := decide (v ≠ 0)

/-- The condition of JF (R111). -/
def testsFalse (v : Int) : Bool := decide (v = 0)

end Sys2Proof.Machine
end

