-- ==== Sys2Proof/Machine/Arith.lean ====
section
/-! DEFINITION. Machine/Arith.lean: ADD and MUL (40_arith.md). Every result is exact in ℤ (R92). -/

namespace Sys2Proof.Machine

/-- ADD with its event (R90). -/
def resultAdd (a b d : Arg) (s : State) : StepResult :=
  binary (Instr.word (.add a b d)) a b d (fun v1 v2 => v1 + v2) s

/-- ADD (R90). -/
def execAdd (a b d : Arg) (s : State) : Host.Outcome State Fault Refusal := (resultAdd a b d s).outcome

/-- MUL with its event (R91). -/
def resultMul (a b d : Arg) (s : State) : StepResult :=
  binary (Instr.word (.mul a b d)) a b d (fun v1 v2 => v1 * v2) s

/-- MUL (R91). -/
def execMul (a b d : Arg) (s : State) : Host.Outcome State Fault Refusal := (resultMul a b d s).outcome

end Sys2Proof.Machine
end

