-- ==== Sys2Proof/Machine/Compare.lean ====
section
/-! DEFINITION. Machine/Compare.lean: LT and EQ (43_compare.md). -/

namespace Sys2Proof.Machine

/-- LT with its event (R120). -/
def resultLt (a b d : Arg) (s : State) : StepResult := binary (Instr.word (.lt a b d)) a b d lessWord s

/-- LT (R120). -/
def execLt (a b d : Arg) (s : State) : Host.Outcome State Fault Refusal := (resultLt a b d s).outcome

/-- EQ with its event (R121). -/
def resultEq (a b d : Arg) (s : State) : StepResult := binary (Instr.word (.eq a b d)) a b d equalWord s

/-- EQ (R121). -/
def execEq (a b d : Arg) (s : State) : Host.Outcome State Fault Refusal := (resultEq a b d s).outcome

end Sys2Proof.Machine
end

