-- ==== Sys2Proof/Machine/Control.lean ====
section
/-! DEFINITION. Machine/Control.lean: ARB (44_relbase.md) and HLT (45_halt.md). -/

namespace Sys2Proof.Machine

/-- ARB with its event (R130). A relative operand is read at the old rb. -/
def resultArb (a : Arg) (s : State) : StepResult :=
  match readArg s (Instr.word (.arb a)) 1 a with
  | .error f => .raise f s
  | .ok v => .continue ((s.setRb (s.rb + v)).advance 2)

/-- ARB (R130). -/
def execArb (a : Arg) (s : State) : Host.Outcome State Fault Refusal := (resultArb a s).outcome

/-- HLT with its event (R140). ip stays at the HLT word (the spec's decision D9). -/
def resultHlt (s : State) : StepResult := ⟨.halted, s.setStatus .halted⟩

/-- HLT (R140). -/
def execHlt (s : State) : Host.Outcome State Fault Refusal := (resultHlt s).outcome

end Sys2Proof.Machine
end

