-- ==== Sys2Proof/Machine/Io.lean ====
section
/-! DEFINITION. Machine/Io.lean: IN and OUT (41_io.md). -/

namespace Sys2Proof.Machine

/-- IN with its event (R100). The target is checked before the queue is tested; with an empty queue nothing changes. -/
def resultInp (d : Arg) (s : State) : StepResult :=
  match writeArg s (Instr.word (.inp d)) 1 d with
  | .error f => .raise f s
  | .ok t =>
    match s.inq with
    | [] => ⟨.needsInput, s⟩
    | x :: rest => .continue (((s.setInq rest).store t x).advance 2)

/-- IN (R100). -/
def execInp (d : Arg) (s : State) : Host.Outcome State Fault Refusal := (resultInp d s).outcome

/-- OUT with its event (R101). -/
def resultOut (a : Arg) (s : State) : StepResult :=
  match readArg s (Instr.word (.out a)) 1 a with
  | .error f => .raise f s
  | .ok v => ⟨.output v, (s.setLastOut v).advance 2⟩

/-- OUT (R101). -/
def execOut (a : Arg) (s : State) : Host.Outcome State Fault Refusal := (resultOut a s).outcome

end Sys2Proof.Machine
end

