-- ==== Sys2Proof/Machine/Jumps.lean ====
section
/-! DEFINITION. Machine/Jumps.lean: JT and JF (42_jumps.md). The target may be any integer; a negative one faults at the
next fetch (R110). -/

namespace Sys2Proof.Machine

/-- JT with its event (R110). -/
def resultJt (a b : Arg) (s : State) : StepResult := jump (Instr.word (.jt a b)) a b testsTrue s

/-- JT (R110). -/
def execJt (a b : Arg) (s : State) : Host.Outcome State Fault Refusal := (resultJt a b s).outcome

/-- JF with its event (R111). -/
def resultJf (a b : Arg) (s : State) : StepResult := jump (Instr.word (.jf a b)) a b testsFalse s

/-- JF (R111). -/
def execJf (a b : Arg) (s : State) : Host.Outcome State Fault Refusal := (resultJf a b s).outcome

end Sys2Proof.Machine
end

