-- ==== Sys2Proof/Machine/Step.lean ====
section
/-! DEFINITION. Machine/Step.lean: one step of the machine (30_encoding.md R77, R83), and how the host places an
instruction where the next step fetches it. -/

namespace Sys2Proof.Machine

/-- One step (R77). It runs only in status Ready; a halted instance refuses and a faulted one faults again
(R167, R168; log entry 2). A fetch or decode fault is taken as R150 says. -/
def step (s : State) : Host.Outcome State Fault Refusal :=
  match s.status with
  | .halted => .refused .resumeHalted
  | .faulted f => .fault (.faulted f)
  | .ready =>
    match fetchDecode s with
    | .error f => (StepResult.raise f s).outcome
    | .ok i => exec i s

/-- `s` with the instruction word `w`, and operand words of zero, stored where the next step fetches; a negative ip is
set to the entry point and the status to Ready, which the fetch needs (log entries 3, 4). -/
def State.withFetchWord (s : State) (_nbits w : Nat) : State :=
  { s with
    mem := Memory.writeWords s.mem s.ip.toNat [(w : Int), 0, 0, 0]
    ip := (s.ip.toNat : Int)
    status := .ready }

end Sys2Proof.Machine
end

