-- ==== Sys2Proof/Machine/HostPort.lean ====
section
/-! DEFINITION. Machine/HostPort.lean: the step with its event (30_encoding.md R77, R83), the run loop and the host port
(60_exceptions.md R165 to R170). -/

namespace Sys2Proof.Machine

/-- The meaning of an instruction with the event it ends with. `exec` is this less the event. -/
def result (i : Instr) (s : State) : StepResult :=
  match i with
  | .add a b d => resultAdd a b d s
  | .mul a b d => resultMul a b d s
  | .inp d => resultInp d s
  | .out a => resultOut a s
  | .jt a b => resultJt a b s
  | .jf a b => resultJf a b s
  | .lt a b d => resultLt a b d s
  | .eq a b d => resultEq a b d s
  | .arb a => resultArb a s
  | .hlt => resultHlt s

/-- `step(s) : StepResult` of R83; it "requires s.status = Ready", which its callers see to. -/
def cycle (s : State) : StepResult :=
  match fetchDecode s with
  | .error f => .raise f s
  | .ok i => result i s

/-- What an event ends a host-port call with; Continue ends none (R166). -/
def Event.ends? : Event → Option ResumeResult
  | .continue => none
  | .output v => some (.output v)
  | .needsInput => some .needsInput
  | .halted => some .halted
  | .fault f => some (.fault f)

/-- The run loop (R166) under fuel. `none` says the fuel ran out and nothing about the hardware (R170). -/
def run : Nat → State → Option (ResumeResult × State)
  | 0, _ => none
  | n + 1, s =>
    match (cycle s).event.ends? with
    | none => run n (cycle s).state
    | some r => some (r, (cycle s).state)

/-- `s.inq <- s.inq ++ [x]`, if the call supplies an input (R165). -/
def State.supply (s : State) : Option Int → State
  | none => s
  | some x => s.setInq (s.inq ++ [x])

/-- The host port (R165, R167, R168) under fuel. -/
def resume (fuel : Nat) (s : State) (inp : Option Int) : Option (ResumeResult × State) :=
  match s.status with
  | .halted => some (.resumeHalted, s)
  | .faulted f => some (.fault f, s)
  | .ready => run fuel (s.supply inp)

/-- The run loop without fuel: `Runs s r t` says that `run(s)` returns `r` and leaves `t` (R166). A run that never
ends (R170) has no derivation. -/
inductive Runs : State → ResumeResult → State → Prop where
  | stops {s : State} {r : ResumeResult} : (cycle s).event.ends? = some r → Runs s r (cycle s).state
  | steps {s t : State} {r : ResumeResult} : (cycle s).event = .continue → Runs (cycle s).state r t → Runs s r t

/-- The host reads `status`, with the halted flag and the fault record, and `lastOut`, and nothing else (R36, R169). -/
def State.hostView (s : State) : Status × Option Int := (s.status, s.lastOut)

/-- The instance is waiting for input (R33). -/
def State.waiting (s : State) : Prop :=
  s.status = .ready ∧ s.inq = [] ∧ ∃ d t, fetchDecode s = .ok (.inp d) ∧ writeArg s (Instr.word (.inp d)) 1 d = .ok t

end Sys2Proof.Machine
end

