-- ==== Sys2Proof/Machine/Pipeline.lean ====
section
/-! DEFINITION. Machine/Pipeline.lean: the host's usage patterns series and feedback (60_exceptions.md R172). They are
the host's, not the core's (00_scope.md R4); instances share no state (R34, R171). Every call runs under the same fuel.
`none` says that some fuel ran out, or, in `series`, that a call gave no Output, or, in `feedback`, that there are no
phases (log entry 5). -/

namespace Sys2Proof.Machine

/-- Construct one instance for each phase and give it the phase as its first input (R172, R185). -/
def seed (fuel : Nat) (image : List Int) : List Int → Option (List State)
  | [] => some []
  | p :: ps =>
    match resume fuel (State.construct image) (some p), seed fuel image ps with
    | some (_, s), some ss => some (s :: ss)
    | _, _ => none

/-- One pass over the instances, each given the signal the one before it put out (R172). -/
def passSignal (fuel : Nat) : List State → Int → Option Int
  | [], sig => some sig
  | s :: ss, sig =>
    match resume fuel s (some sig) with
    | some (.output v, _) => passSignal fuel ss v
    | _ => none

/-- `series(P, phases)` (R172). -/
def series (fuel : Nat) (image phases : List Int) : Option Int :=
  match seed fuel image phases with
  | some ss => passSignal fuel ss 0
  | none => none

/-- The signal a result hands on (R172). -/
def ResumeResult.signal? : ResumeResult → Option Int
  | .output v => some v
  | .needsInput | .halted | .fault _ | .resumeHalted => none

/-- The loop of `feedback` at instance `i` (R172); an instance that has halted is skipped and the signal kept for the
next one (log entry 5). DESIGN CHOICE, log entry 5: with no instances (N = 0), which R172 does not treat, it answers
`none`; with any, `i` stays below N, so that the outer `none` is spent fuel. The inner Option is the last instance's
lastOut. -/
def feedbackLoop (fuel : Nat) : Nat → List State → Nat → Option Int → Option (Option Int)
  | 0, _, _, _ => none
  | n + 1, ss, i, sig =>
    match ss[i]? with
    | none => none
    | some s =>
      if s.halted then feedbackLoop fuel n ss ((i + 1) % ss.length) sig
      else
        match resume fuel s sig with
        | none => none
        | some (r, t) =>
          if r = .halted ∧ i + 1 = ss.length then some t.lastOut
          else feedbackLoop fuel n (ss.set i t) ((i + 1) % ss.length) r.signal?

/-- `feedback(P, phases)` (R172), at most `calls` host-port calls and skips; `none` over no phases (log entry 5). -/
def feedback (fuel calls : Nat) (image phases : List Int) : Option (Option Int) :=
  match seed fuel image phases with
  | some ss => feedbackLoop fuel calls ss 0 (some 0)
  | none => none

end Sys2Proof.Machine
end

