-- ==== Sys2Proof/Machine/Units.lean ====
section
/-! DEFINITION. Machine/Units.lean: the hardware view of 00_scope.md R13 and the whole step as one function,
30_encoding.md R83: fetch unit, mode decoder, addressing unit, ALU, control-flow arbiter, then one commit (R81). The
meanings of the instructions are stated rule by rule elsewhere; this is the spec's other account of them. -/

namespace Sys2Proof.Machine

/-- What the addressing unit yields for an argument: `Val v | Nat a` (R13). -/
inductive Operand where
  | val (v : Int)
  | addr (a : Nat)
  deriving DecidableEq, Repr

/-- The value of a read operand. A target has none; the 0 given for it is used by nothing (log entry 12). -/
def Operand.value : Operand → Int
  | .val v => v
  | .addr _ => 0

/-- The addressing unit `operand(mem, rb, ip, k, role, mode)` (R13, R46 to R50), the `match` of R83. The instruction word
`w` is passed for the fault record alone (R46: `raise NegativeAddress(ip, w, k, a)`). -/
def operand (mem : Memory) (rb ip w : Int) (k : Nat) (role : Role) (mode : Mode) : Except FaultRecord Operand :=
  let raw := Memory.read mem (ip.toNat + k)
  match role, mode with
  | .read, .position =>
    if raw < 0 then .error (addressFault ip w k raw) else .ok (.val (Memory.read mem raw.toNat))
  | .read, .immediate => .ok (.val raw)
  | .read, .relative =>
    if rb + raw < 0 then .error (addressFault ip w k (rb + raw)) else .ok (.val (Memory.read mem (rb + raw).toNat))
  | .write, .position => if raw < 0 then .error (addressFault ip w k raw) else .ok (.addr raw.toNat)
  | .write, .relative =>
    if rb + raw < 0 then .error (addressFault ip w k (rb + raw)) else .ok (.addr (rb + raw).toNat)
  | .write, .immediate => .error (targetModeFault ip w k)

/-- The loop `for k in 1..n` of R79 and R83: the first argument that faults stops it. -/
def operands (mem : Memory) (rb ip w : Int) : Nat → List Role → List Mode → Except FaultRecord (List Operand)
  | k, r :: rs, m :: ms =>
    match operand mem rb ip w k r m with
    | .error f => .error f
    | .ok x =>
      match operands mem rb ip w (k + 1) rs ms with
      | .error f => .error f
      | .ok xs => .ok (x :: xs)
  | _, _, _ => .ok []

/-- The integer ALU `alu(op, v1, v2)` (R13; R90, R91, R120, R121, R130, R92: "ARB computes `rb + v1`"). For ARB, which has
one argument, the second input is rb (log entry 12). The operations with no ALU result are given their first input, which
nothing uses (log entry 12). -/
def alu (op : Op) (v1 v2 : Int) : Int :=
  match op with
  | .add => v1 + v2
  | .mul => v1 * v2
  | .lt => if v1 < v2 then 1 else 0
  | .eq => if v1 = v2 then 1 else 0
  | .arb => v2 + v1
  | .inp | .out | .jt | .jf | .hlt => v1

/-- The control-flow arbiter `next(op, n, ip, v1, v2, inqEmpty)` (R13): the table of R80, where `ip + 4`, `ip + 2` and
`ip + 3` are the fall-through `ip + (1 + n)` of R64. -/
def arbiter (op : Op) (n : Nat) (ip v1 v2 : Int) (inqEmpty : Bool) : Int × Event :=
  let fallThrough : Int := ip + (1 + n : Nat)
  match op with
  | .add | .mul | .lt | .eq | .arb => (fallThrough, .continue)
  | .inp => if inqEmpty then (ip, .needsInput) else (fallThrough, .continue)
  | .out => (fallThrough, .output v1)
  | .jt => (if v1 ≠ 0 then v2 else fallThrough, .continue)
  | .jf => (if v1 = 0 then v2 else fallThrough, .continue)
  | .hlt => (ip, .halted)

/-- The effects of one commit besides ip (R81): at most one of each. -/
structure Effects where
  write   : Option (Nat × Int) := none
  rb      : Option Int := none
  dequeue : Bool := false
  lastOut : Option Int := none
  status  : Option Status := none

/-- All the effects take place at once (R81). -/
def commit (s : State) (nextIp : Int) (e : Effects) : State where
  mem     := match e.write with
    | some (a, v) => Memory.write s.mem a v
    | none => s.mem
  ip      := nextIp
  rb      := e.rb.getD s.rb
  inq     := if e.dequeue then s.inq.tail else s.inq
  lastOut := if e.lastOut.isSome then e.lastOut else s.lastOut
  status  := e.status.getD s.status

/-- The `match op` of R83: the effects of each operation on its evaluated operands. -/
def effects (s : State) (op : Op) (xs : List Operand) : Effects :=
  match op, xs with
  | .add, [.val v1, .val v2, .addr a] | .mul, [.val v1, .val v2, .addr a]
  | .lt, [.val v1, .val v2, .addr a] | .eq, [.val v1, .val v2, .addr a] => { write := some (a, alu op v1 v2) }
  | .inp, [.addr a] =>
    match s.inq with
    | [] => {}
    | x :: _ => { write := some (a, x), dequeue := true }
  | .out, [.val v1] => { lastOut := some v1 }
  | .arb, [.val v1] => { rb := some (alu .arb v1 s.rb) }
  | .hlt, [] => { status := some .halted }
  | _, _ => {}

/-- The step composed of the units (R13, R83). It "requires s.status = Ready". An operand an operation does not have is
given to the arbiter as 0, which its row of R80 does not use (log entry 12). -/
def unitStep (s : State) : StepResult :=
  match fetch s.mem s.ip with
  | .error f => .raise f s
  | .ok w =>
    match decodeHead w with
    | .error e => .raise (DecodeFault.record s.ip w e) s
    | .ok h =>
      match operands s.mem s.rb s.ip w 1 h.op.roles h.modes with
      | .error f => .raise f s
      | .ok xs =>
        let next := arbiter h.op h.op.arity s.ip ((xs.getD 0 (.val 0)).value) ((xs.getD 1 (.val 0)).value) s.inq.isEmpty
        ⟨next.2, commit s next.1 (effects s h.op xs)⟩

end Sys2Proof.Machine
end

