-- ==== Sys2Proof/Safety.lean ====
section
/-! DEFINITION. Safety.lean: the terms claims use: when an argument can be evaluated, the invariant of the state, the
states an instance can reach, and a safe instance. -/

namespace Sys2Proof.Machine

/-- A read argument whose address, if it computes one, is not negative (R44, R46 to R48). -/
def Arg.readable (s : State) (a : Arg) : Prop := ∀ x, Arg.address? s.rb a = some x → 0 ≤ x

/-- The value of a readable argument (R46 to R48). -/
def Arg.value (s : State) (a : Arg) : Int :=
  match a.mode with
  | .immediate => a.raw
  | .position => s.load a.raw.toNat
  | .relative => s.load (s.rb + a.raw).toNat

/-- A write argument that names the cell `t` (R49). -/
def Arg.targets (s : State) (a : Arg) (t : Nat) : Prop := Arg.address? s.rb a = some (t : Int)

/-- The first argument whose address is negative, with that address (R79, R155). -/
def firstNegative (rb : Int) : Nat → List Arg → Option (Nat × Int)
  | _, [] => none
  | k, a :: as =>
    match Arg.address? rb a with
    | some x => if x < 0 then some (k, x) else firstNegative rb (k + 1) as
    | none => firstNegative rb (k + 1) as

/-- The shape R152 gives a fault record of each code. -/
def FaultRecord.wf (f : FaultRecord) : Prop :=
  match f.code with
  | .unknownOpcode => f.word.isSome ∧ f.arg = 0 ∧ f.detail = none
  | .invalidAddressingMode =>
    f.word.isSome ∧ 1 ≤ f.arg ∧ f.arg ≤ 3 ∧ ∃ d, f.detail = some d ∧ 1 ≤ d ∧ d ≤ 9
  | .negativeAddress =>
    (∃ a, f.detail = some a ∧ a < 0 ∧ (f.arg = 0 → a = f.ip)) ∧ f.arg ≤ 3 ∧ (f.word = none ↔ f.arg = 0)

/-- What the status says of the rest of the state: a fault record is of R152's shape and names the ip and the word that
stand in the state, which the fault left as they were (R82). -/
def Status.explained (s : State) : Status → Prop
  | .ready | .halted => True
  | .faulted f =>
    FaultRecord.wf f ∧ f.ip = s.ip ∧
      match f.word with
      | none => s.ip < 0
      | some w => 0 ≤ s.ip ∧ w = s.load s.ip.toNat

/-- The invariant of the state: memory is in its canonical form and the status is explained. -/
def State.Inv (s : State) : Prop := Memory.wf s.mem ∧ Status.explained s s.status

/-- The states an instance constructed from `image` can be in: steps of the core, and inputs the host appends while it is
Ready (R165, R169). -/
inductive Reachable (image : List Int) : State → Prop where
  | construct : Reachable image (State.construct image)
  | step {s t : State} : Reachable image s → step s = .next t → Reachable image t
  | supply {s : State} (x : Int) : Reachable image s → s.status = .ready → Reachable image (s.supply (some x))

/-- An image is safe if no state it can reach has faulted. -/
def Safe (image : List Int) : Prop := ∀ s, Reachable image s → ∀ f, s.status ≠ .faulted f

end Sys2Proof.Machine
end

