-- ==== Sys2Proof/Certificates/Slice0/Obligations.lean ====
section
/-! DEFINITION. Certificates/Slice0/Obligations.lean: the statements for the provers. Each docstring names the rule of
spec/ it formalises; where a clause rests on one of the spec's own decisions D<n> or on a choice of the model (a log
entry), it says so. `exec` answers the state alone; `result` is the same meaning with the event of R77. -/

section
open Sys2Proof Sys2Proof.Machine

/-! ## Encoding -/

/-- Words written out digit by digit from R60, R73 and 95_test_vectors.md L2-A decode as the spec says, one for every
operation, and words it lists as illegal are refused for the reason it gives. -/
def Obligations.SpecWordsDecode : Prop :=
  decode [21107, -5, 3, 20] = .ok (.lt ⟨.immediate, -5⟩ ⟨.immediate, 3⟩ ⟨.relative, 20⟩) ∧
  decode [1, 9, 10, 11] = .ok (.add ⟨.position, 9⟩ ⟨.position, 10⟩ ⟨.position, 11⟩) ∧
  decode [1002, 4, 3, 4] = .ok (.mul ⟨.position, 4⟩ ⟨.immediate, 3⟩ ⟨.position, 4⟩) ∧
  decode [203, 0] = .ok (.inp ⟨.relative, 0⟩) ∧ decode [204, -1] = .ok (.out ⟨.relative, -1⟩) ∧
  decode [2105, 7, 8] = .ok (.jt ⟨.immediate, 7⟩ ⟨.relative, 8⟩) ∧
  decode [1006, 101, 0] = .ok (.jf ⟨.position, 101⟩ ⟨.immediate, 0⟩) ∧
  decode [1008, 100, 16, 101] = .ok (.eq ⟨.position, 100⟩ ⟨.immediate, 16⟩ ⟨.position, 101⟩) ∧
  decode [109, 1] = .ok (.arb ⟨.immediate, 1⟩) ∧ decode [99] = .ok .hlt ∧
  decode [0] = .error .unknownOpcode ∧ decode [-1] = .error .unknownOpcode ∧
  decode [1109] = .error .unknownOpcode ∧ decode [103] = .error (.invalidMode 1 1) ∧
  decode [32201] = .error (.invalidMode 3 3) ∧ decode [30301] = .error (.invalidMode 1 3)

/-- Decoding what the encoder gives for a well-formed instruction gives it back, whatever its operand words and whatever
words follow (R60, R61, R65, R75). -/
def Obligations.DecodeOfEncodeIsTheInstruction : Prop :=
  ∀ (i : Instr) (rest : List Int), i.wellFormed = true → decode (encode i ++ rest) = .ok i

/-- What decodes is well formed, and its encoding is the words it was decoded from: no word has two readings (R61,
R73, R74). That words past the list's end read as 0 is the model's reading of R53, which speaks of memory past the program
image, for a list: log entry 10 (DEDUCED). -/
def Obligations.EncodeOfDecodeIsTheWords : Prop :=
  ∀ (ws : List Int) (i : Instr), decode ws = .ok i →
    i.wellFormed = true ∧ encode i = (List.range i.length).map fun k => ws.getD k 0

/-- A word decodes to an operation exactly when R73's table lists it there, and the table lists 99 words. (The spec marks
R73 as derived from R60 to R72.) -/
def Obligations.LegalWordsAreTheTable : Prop :=
  (∀ (w : Int) (o : Op), (∃ ms, decodeHead w = .ok ⟨o, ms⟩) ↔ w ∈ legalWords o) ∧
  ([Op.add, .mul, .inp, .out, .jt, .jf, .lt, .eq, .arb, .hlt].flatMap legalWords).Nodup ∧
  ([Op.add, .mul, .inp, .out, .jt, .jf, .lt, .eq, .arb, .hlt].flatMap legalWords).length = 99

/-- R62: the table's opcode, arity, roles and length of each operation, and every other value of `w mod 100` unknown. -/
def Obligations.OpcodeTableIsTheSpecs : Prop :=
  (∀ (c : Nat) (o : Op), Op.ofCode? c = some o ↔
    (c, o) ∈ [(1, Op.add), (2, .mul), (3, .inp), (4, .out), (5, .jt), (6, .jf), (7, .lt), (8, .eq), (9, .arb),
      (99, .hlt)]) ∧
  (∀ i : Instr, (i.op, i.op.arity, i.op.roles, i.length) ∈
    [(Op.add, 3, [Role.read, .read, .write], 4), (.mul, 3, [.read, .read, .write], 4), (.inp, 1, [.write], 2),
      (.out, 1, [.read], 2), (.jt, 2, [.read, .read], 3), (.jf, 2, [.read, .read], 3),
      (.lt, 3, [.read, .read, .write], 4), (.eq, 3, [.read, .read, .write], 4), (.arb, 1, [.read], 2),
      (.hlt, 0, [], 1)]) ∧
  ∀ w : Int, 0 ≤ w → w % 100 ∉ [(1 : Int), 2, 3, 4, 5, 6, 7, 8, 9, 99] → decodeHead w = .error .unknownOpcode

/-- R65: the mode of argument `k` is the decimal digit of weight `10^(k+1)`, so digit 2 for argument 1, digit 3 for
argument 2 and digit 4 for argument 3. -/
def Obligations.ModesAreTheDecimalDigits : Prop :=
  ∀ (w : Int) (h : Head), decodeHead w = .ok h →
    h.modes.length = h.op.arity ∧
    ∀ (k : Nat) (m : Mode), 1 ≤ k → h.modes[k - 1]? = some m → (m.digit : Int) = w / 10 ^ (k + 1) % 10

/-- R68 to R70 together: a word is an unknown opcode exactly when it is negative, or its last two digits are no opcode, or
a digit above the last mode digit is not zero. (The negative word and the excess digits are the spec's decisions D4
and D5.) -/
def Obligations.UnknownOpcodeExactly : Prop :=
  ∀ w : Int, decodeHead w = .error .unknownOpcode ↔
    w < 0 ∨ (∀ o : Op, (o.code : Int) ≠ w % 100) ∨ ∃ o : Op, (o.code : Int) = w % 100 ∧ w / 10 ^ (o.arity + 2) ≠ 0

/-- R71: with a known opcode and no excess digits, the first argument whose mode digit is above 2, or is 1 on a
write-role argument, is the one reported, with its digit; if there is none the word is legal. -/
def Obligations.FirstBadModeIsReported : Prop :=
  ∀ (w : Int) (o : Op), 0 ≤ w → (o.code : Int) = w % 100 → w / 10 ^ (o.arity + 2) = 0 →
    (∀ k d : Nat, decodeHead w = .error (.invalidMode k d) ↔
      1 ≤ k ∧ k ≤ o.arity ∧ (d : Int) = w / 10 ^ (k + 1) % 10 ∧
      (2 < d ∨ d = 1 ∧ o.roles[k - 1]? = some .write) ∧
      ∀ j, 1 ≤ j → j < k → w / 10 ^ (j + 1) % 10 ≤ 2 ∧
        ¬(w / 10 ^ (j + 1) % 10 = 1 ∧ o.roles[j - 1]? = some .write)) ∧
    decodeHead w ≠ .error .unknownOpcode ∧
    ∀ (s : State) (k d : Nat), s.status = .ready → 0 ≤ s.ip → s.load s.ip.toNat = w →
      decodeHead w = .error (.invalidMode k d) →
      cycle s = ⟨.fault ⟨.invalidAddressingMode, s.ip, some w, k, some d⟩,
        { s with status := .faulted ⟨.invalidAddressingMode, s.ip, some w, k, some d⟩ }⟩

/-! ## Fetch and the step -/

/-- A decode fault at a Ready instance's ip is taken: status becomes Faulted with R152's record and nothing else changes
(R72, R82, R150; the record's fields are the spec's decision D10). -/
def Obligations.DecodeFaultIsTaken : Prop :=
  ∀ s : State, s.status = .ready → 0 ≤ s.ip →
    (decodeHead (s.load s.ip.toNat) = .error .unknownOpcode →
      step s = .next
        { s with status := .faulted ⟨.unknownOpcode, s.ip, some (s.load s.ip.toNat), 0, none⟩ }) ∧
    ∀ k d : Nat, decodeHead (s.load s.ip.toNat) = .error (.invalidMode k d) →
      step s = .next
        { s with status := .faulted ⟨.invalidAddressingMode, s.ip, some (s.load s.ip.toNat), k, some d⟩ }

/-- A fetch at a negative ip raises NegativeAddress with arg 0 and no word, before anything else (R78, R155; the place
of detection is the spec's decision D8). -/
def Obligations.NegativeIpFaultsAtFetch : Prop :=
  ∀ s : State, s.status = .ready → s.ip < 0 →
    step s = .next { s with status := .faulted ⟨.negativeAddress, s.ip, none, 0, some s.ip⟩ }

/-- A step runs the decoded instruction: where the words at ip decode to `i`, a Ready instance's step is `exec i`, and
with its event `result i` (R77, R83). -/
def Obligations.StepRunsTheDecodedInstruction : Prop :=
  ∀ (s : State) (i : Instr), s.status = .ready → 0 ≤ s.ip →
    decode [s.load s.ip.toNat, s.load (s.ip.toNat + 1), s.load (s.ip.toNat + 2), s.load (s.ip.toNat + 3)] = .ok i →
    step s = exec i s ∧ cycle s = result i s

/-- The same from the encoder's side: where memory at ip holds the words of a well-formed instruction, a Ready instance's
step is `exec` of it (R61, R77). -/
def Obligations.StepRunsTheEncodedInstruction : Prop :=
  ∀ (s : State) (i : Instr), s.status = .ready → 0 ≤ s.ip → i.wellFormed = true →
    (∀ (k : Nat) (w : Int), (encode i)[k]? = some w → s.load (s.ip.toNat + k) = w) → step s = exec i s

/-- `step` is the step of R83 less its event. -/
def Obligations.StepIsTheCycleState : Prop :=
  ∀ s : State, s.status = .ready → step s = .next (cycle s).state

/-- A halted instance and a faulted one never step again (R24, R154). That the model shows this as a refusal and as a
fault of its own is the model's choice, log entry 2. -/
def Obligations.StoppedInstanceNeverSteps : Prop :=
  ∀ s : State, (s.status = .halted → step s = .refused .resumeHalted) ∧
    (∀ f, s.status = .faulted f → step s = .fault (.faulted f)) ∧
    ∀ t, step s = .next t → s.status = .ready

/-- The hardware view agrees with the rules of the instructions: fetch unit, mode decoder, addressing unit, ALU, arbiter
(R80's table) and commit (R81), composed as R83 composes them, give every state's step with its event. (HLT's ip there is
the spec's decision D9.) -/
def Obligations.UnitsComposeToTheStep : Prop := ∀ s : State, unitStep s = cycle s

/-! ## The addressing unit -/

/-- R46 to R49: the value of a read argument and the address of a write argument in each mode, or NegativeAddress. A write
argument dereferences nothing. (The fields of the record are the spec's decision D10.) -/
def Obligations.AddressingUnitFollowsTheModes : Prop :=
  ∀ (s : State) (w raw : Int) (k : Nat),
    readArg s w k ⟨.position, raw⟩ = (if raw < 0 then .error ⟨.negativeAddress, s.ip, some w, k, some raw⟩
      else .ok (s.load raw.toNat)) ∧
    readArg s w k ⟨.immediate, raw⟩ = .ok raw ∧
    readArg s w k ⟨.relative, raw⟩ =
      (if s.rb + raw < 0 then .error ⟨.negativeAddress, s.ip, some w, k, some (s.rb + raw)⟩
      else .ok (s.load (s.rb + raw).toNat)) ∧
    writeArg s w k ⟨.position, raw⟩ = (if raw < 0 then .error ⟨.negativeAddress, s.ip, some w, k, some raw⟩
      else .ok raw.toNat) ∧
    writeArg s w k ⟨.relative, raw⟩ =
      (if s.rb + raw < 0 then .error ⟨.negativeAddress, s.ip, some w, k, some (s.rb + raw)⟩
      else .ok (s.rb + raw).toNat)

/-- With rb = 0, relative and position mode name the same cell for every `k ≥ 0`, and both raise NegativeAddress with the
same address for `k < 0`, for reads and for targets (R51, which the spec marks as derived from R46, R48, R49). -/
def Obligations.RelativeEqualsPositionAtBaseZero : Prop :=
  ∀ (s : State) (w raw : Int) (k : Nat), s.rb = 0 →
    readArg s w k ⟨.relative, raw⟩ = readArg s w k ⟨.position, raw⟩ ∧
    writeArg s w k ⟨.relative, raw⟩ = writeArg s w k ⟨.position, raw⟩ ∧
    (0 ≤ raw → readArg s w k ⟨.relative, raw⟩ = .ok (s.load raw.toNat) ∧
      writeArg s w k ⟨.relative, raw⟩ = .ok raw.toNat) ∧
    (raw < 0 → readArg s w k ⟨.relative, raw⟩ = .error ⟨.negativeAddress, s.ip, some w, k, some raw⟩ ∧
      writeArg s w k ⟨.relative, raw⟩ = .error ⟨.negativeAddress, s.ip, some w, k, some raw⟩)

/-- An instruction with an argument whose address is negative raises NegativeAddress for the first of them and changes
nothing but status: every instruction with arguments, every mode, and IN also with an empty queue (R44, R79, R155; the
order of the arguments is the spec's decision D6, IN's D7, the record D10). -/
def Obligations.NegativeAddressStopsEveryInstruction : Prop :=
  ∀ (i : Instr) (s : State) (k : Nat) (x : Int), i.wellFormed = true → firstNegative s.rb 1 i.args = some (k, x) →
    exec i s = .next { s with status := .faulted ⟨.negativeAddress, s.ip, some i.word, k, some x⟩ }

/-- A term with an immediate write argument, which the decoder never gives, raises the InvalidAddressingMode that R50 and
R71 name, before any address is checked (that `exec` says so of such a term is the model's choice, log entry 6). -/
def Obligations.ImmediateTargetIsInvalidMode : Prop :=
  ∀ (i : Instr) (s : State), i.wellFormed = false →
    ∃ k d, i.target? = some (k, d) ∧ d.mode = .immediate ∧
      exec i s = .next { s with status := .faulted ⟨.invalidAddressingMode, s.ip, some i.word, k, some 1⟩ }

/-! ## What each instruction does

Each of these gives the whole next state: what the equation does not name is unchanged. Memory after a store is
`Memory.write`, whose reads `MemWriteChangesOneCell` gives. -/

/-- ADD (R90): with readable sources and a target `t`, `mem[t] <- v1 + v2`, ip moves past four words, event Continue. The
sum is exact, and the values are those before the write. -/
def Obligations.AddStoresTheSum : Prop :=
  ∀ (a b d : Arg) (t : Nat) (s : State), Arg.readable s a → Arg.readable s b → Arg.targets s d t →
    let s' := { s with mem := Memory.write s.mem t (Arg.value s a + Arg.value s b), ip := s.ip + 4 }
    exec (.add a b d) s = .next s' ∧ result (.add a b d) s = ⟨.continue, s'⟩

/-- MUL (R91): `mem[t] <- v1 * v2`, exactly. -/
def Obligations.MulStoresTheProduct : Prop :=
  ∀ (a b d : Arg) (t : Nat) (s : State), Arg.readable s a → Arg.readable s b → Arg.targets s d t →
    let s' := { s with mem := Memory.write s.mem t (Arg.value s a * Arg.value s b), ip := s.ip + 4 }
    exec (.mul a b d) s = .next s' ∧ result (.mul a b d) s = ⟨.continue, s'⟩

/-- LT (R120): 1 if `v1 < v2`, signed and exact, else 0. -/
def Obligations.LessThanStoresOneOrZero : Prop :=
  ∀ (a b d : Arg) (t : Nat) (s : State), Arg.readable s a → Arg.readable s b → Arg.targets s d t →
    let s' := { s with
      mem := Memory.write s.mem t (if Arg.value s a < Arg.value s b then 1 else 0), ip := s.ip + 4 }
    exec (.lt a b d) s = .next s' ∧ result (.lt a b d) s = ⟨.continue, s'⟩

/-- EQ (R121): 1 if `v1 = v2`, else 0. -/
def Obligations.EqualsStoresOneOrZero : Prop :=
  ∀ (a b d : Arg) (t : Nat) (s : State), Arg.readable s a → Arg.readable s b → Arg.targets s d t →
    let s' := { s with
      mem := Memory.write s.mem t (if Arg.value s a = Arg.value s b then 1 else 0), ip := s.ip + 4 }
    exec (.eq a b d) s = .next s' ∧ result (.eq a b d) s = ⟨.continue, s'⟩

/-- IN with a value queued (R100): the head of inq is dequeued and stored, ip moves past two words, no suspension. -/
def Obligations.InputTakesTheOldestValue : Prop :=
  ∀ (d : Arg) (t : Nat) (s : State) (x : Int) (rest : List Int), Arg.targets s d t → s.inq = x :: rest →
    let s' := { s with mem := Memory.write s.mem t x, inq := rest, ip := s.ip + 2 }
    exec (.inp d) s = .next s' ∧ result (.inp d) s = ⟨.continue, s'⟩

/-- IN with an empty queue and a valid target (R100, R82): event NeedsInput, and nothing at all changes. -/
def Obligations.InputWaitsOnAnEmptyQueue : Prop :=
  ∀ (d : Arg) (t : Nat) (s : State), Arg.targets s d t → s.inq = [] →
    exec (.inp d) s = .next s ∧ result (.inp d) s = ⟨.needsInput, s⟩

/-- OUT (R101): lastOut becomes the value, ip moves past two words, event Output of it, whatever inq holds. -/
def Obligations.OutputEmitsTheValue : Prop :=
  ∀ (a : Arg) (s : State), Arg.readable s a →
    let s' := { s with lastOut := some (Arg.value s a), ip := s.ip + 2 }
    exec (.out a) s = .next s' ∧ result (.out a) s = ⟨.output (Arg.value s a), s'⟩

/-- JT (R110): ip becomes the second value, taken as it stands and of any sign, if the first is not 0, else moves past
three words. Nothing else changes. -/
def Obligations.JumpIfTrueSetsIp : Prop :=
  ∀ (a b : Arg) (s : State), Arg.readable s a → Arg.readable s b →
    let s' := { s with ip := if Arg.value s a ≠ 0 then Arg.value s b else s.ip + 3 }
    exec (.jt a b) s = .next s' ∧ result (.jt a b) s = ⟨.continue, s'⟩

/-- JF (R111): as JT with the condition inverted. -/
def Obligations.JumpIfFalseSetsIp : Prop :=
  ∀ (a b : Arg) (s : State), Arg.readable s a → Arg.readable s b →
    let s' := { s with ip := if Arg.value s a = 0 then Arg.value s b else s.ip + 3 }
    exec (.jf a b) s = .next s' ∧ result (.jf a b) s = ⟨.continue, s'⟩

/-- ARB (R130): rb becomes `rb + v1`, exactly and of any sign; a relative operand is read at the old rb. -/
def Obligations.AdjustAddsToTheBase : Prop :=
  ∀ (a : Arg) (s : State), Arg.readable s a →
    let s' := { s with rb := s.rb + Arg.value s a, ip := s.ip + 2 }
    exec (.arb a) s = .next s' ∧ result (.arb a) s = ⟨.continue, s'⟩

/-- HLT (R140): status becomes Halted, event Halted; memory, rb, inq and lastOut keep their values. Nothing is claimed of
ip: that it stays is the spec's decision D9, on which it says no claim should rest. -/
def Obligations.HaltSetsTheStatus : Prop :=
  ∀ s : State, ∃ t, exec .hlt s = .next t ∧ result .hlt s = ⟨.halted, t⟩ ∧ t.status = .halted ∧ t.mem = s.mem ∧
    t.rb = s.rb ∧ t.inq = s.inq ∧ t.lastOut = s.lastOut

/-- The pseudo-instructions of R76 (the spec's decision D16) do what their names say: JMP always jumps, MOV copies. -/
def Obligations.PseudoInstructionsJumpAndMove : Prop :=
  (∀ (t : Arg) (s : State), Arg.readable s t → exec (Instr.jmp t) s = .next { s with ip := Arg.value s t }) ∧
  ∀ (a d : Arg) (t : Nat) (s : State), Arg.readable s a → Arg.targets s d t →
    exec (Instr.mov a d) s = .next { s with mem := Memory.write s.mem t (Arg.value s a), ip := s.ip + 4 }

/-- R122: a comparison leaves exactly 1 or 0 in its target, and a later JT or JF tests it against 0: JT through that cell
jumps exactly when the comparison held, JF exactly when it did not. (The canonical form of the premise is the model's, log
entry 1.) -/
def Obligations.ComparisonsDriveTheJumps : Prop :=
  ∀ (a b d g : Arg) (c : Nat) (s : State), Memory.wf s.mem → Arg.readable s a → Arg.readable s b →
    Arg.targets s d c →
    (∃ t, exec (.lt a b d) s = .next t ∧ t.load c = (if Arg.value s a < Arg.value s b then 1 else 0) ∧
      (Arg.readable t g →
        exec (.jt ⟨.position, c⟩ g) t =
          .next { t with ip := if Arg.value s a < Arg.value s b then Arg.value t g else t.ip + 3 } ∧
        exec (.jf ⟨.position, c⟩ g) t =
          .next { t with ip := if Arg.value s a < Arg.value s b then t.ip + 3 else Arg.value t g })) ∧
    ∃ t, exec (.eq a b d) s = .next t ∧ t.load c = (if Arg.value s a = Arg.value s b then 1 else 0) ∧
      (Arg.readable t g →
        exec (.jt ⟨.position, c⟩ g) t =
          .next { t with ip := if Arg.value s a = Arg.value s b then Arg.value t g else t.ip + 3 } ∧
        exec (.jf ⟨.position, c⟩ g) t =
          .next { t with ip := if Arg.value s a = Arg.value s b then t.ip + 3 else Arg.value t g })

/-! ## Memory -/

/-- R43: a write changes exactly one cell, at any address at all. (The canonical form is the model's, log entry 1, and a
write keeps it: Memory.write_wf.) -/
def Obligations.MemWriteChangesOneCell : Prop :=
  ∀ (m : Memory) (a b : Nat) (v : Int), Memory.wf m →
    Memory.read (Memory.write m a v) b = if b = a then v else Memory.read m b

/-- The fetch after a write sees it: at the address written the new word, at every other ip what it saw before, with no
fence and no delay (R59, R187; the spec's decision D14). (The canonical form of the premise is the model's, log entry 1.) -/
def Obligations.FetchSeesEveryEarlierWrite : Prop :=
  ∀ (m : Memory) (a : Nat) (v ip : Int), Memory.wf m →
    fetch (Memory.write m a v) ip = if ip = (a : Int) then .ok v else fetch m ip

/-- Memories in canonical form that read the same everywhere are equal data: the list stands for the total map of R20 and
R41, and for it alone (log entry 1). -/
def Obligations.MemoryIsDeterminedByItsReads : Prop :=
  ∀ m n : Memory, Memory.wf m → Memory.wf n → (∀ a, Memory.read m a = Memory.read n a) → m = n

/-- Construction (R35, R180, R181): the image at address 0 on and 0 above it, ip and rb 0, and inq empty, lastOut none and
status Ready (the spec's decisions D19 and D20). -/
def Obligations.ConstructionGivesTheResetValues : Prop :=
  ∀ (image : List Int), let s := State.construct image
    (∀ a : Nat, s.load a = image.getD a 0) ∧ s.ip = 0 ∧ s.rb = 0 ∧ s.inq = [] ∧ s.lastOut = none ∧ s.status = .ready

/-- R41's testable property, for any image: writing any previously unaddressed index succeeds, and reading an index
between the image and it returns 0. -/
def Obligations.GrowthPadsWithZeros : Prop :=
  ∀ (image : List Int) (i j : Nat) (v : Int), image.length ≤ j → j < i →
    let s := (State.construct image).store i v
    s.load i = v ∧ s.load j = 0 ∧ ∀ a, a < image.length → s.load a = image.getD a 0

/-- The state after reset is the one constructed from the empty image, and its first step raises UnknownOpcode on the word
0 (R185, the spec's decision D27 and a derived clause). -/
def Obligations.EmptyImageFaultsAtItsFirstStep : Prop :=
  State.reset = State.construct [] ∧
  step State.reset = .next { State.reset with status := .faulted ⟨.unknownOpcode, 0, some 0, 0, none⟩ }

/-! ## Frames and whole-machine rules -/

/-- Memory's frame, for every instruction: where the write argument names the cell `c`, every other address reads as
before; where there is no write argument, or it names no cell, every address reads as before (R45, R81). (The canonical form of
the premise is the model's, log entry 1.) -/
def Obligations.OnlyTheTargetCellChanges : Prop :=
  ∀ (i : Instr) (s t : State), Memory.wf s.mem → exec i s = .next t →
    (∀ k d c, i.target? = some (k, d) → Arg.targets s d c → ∀ a, a ≠ c → t.load a = s.load a) ∧
    (i.target? = none → t.mem = s.mem) ∧
    ∀ k d, i.target? = some (k, d) → (∀ c, ¬ Arg.targets s d c) → t.mem = s.mem

/-- The registers' frame, for every instruction: rb changes only under ARB, inq only under IN and only by losing its head,
lastOut only under OUT, and status only under HLT or by a fault, which changes nothing else (R45, R81, R82). -/
def Obligations.RegistersChangeOnlyUnderTheirInstruction : Prop :=
  ∀ (i : Instr) (s t : State), exec i s = .next t →
    (i.op ≠ .arb → t.rb = s.rb) ∧
    (i.op ≠ .inp → t.inq = s.inq) ∧ (t.inq = s.inq ∨ ∃ x, s.inq = x :: t.inq) ∧
    (i.op ≠ .out → t.lastOut = s.lastOut) ∧
    (t.status = s.status ∨ (i.op = .hlt ∧ t.status = .halted) ∨ ∃ f, t = { s with status := .faulted f })

/-- R131: ARB is the only writer of rb, and the only reader of rb is the addressing unit for mode-2 arguments: an
instruction none of whose arguments is relative does the same at every rb, moved by the same amount. -/
def Obligations.OnlyAdjustWritesTheBaseAndOnlyRelativeReadsIt : Prop :=
  (∀ (s t : State), step s = .next t → t.rb ≠ s.rb → ∃ a, fetchDecode s = .ok (.arb a)) ∧
  ∀ (i : Instr) (s t : State) (r : Int), (∀ a ∈ i.args, a.mode ≠ .relative) → exec i s = .next t →
    exec i { s with rb := r } = .next { t with rb := r + (t.rb - s.rb) }

/-- R26 and R27 of the step: only IN removes from inq, and it takes the head; nothing in the core adds to it; only OUT
writes lastOut, and it writes the value emitted. (That lastOut is none before the first output and inq unbounded are the
spec's decisions D19 and D20.) -/
def Obligations.OnlyInAndOutTouchThePortRegisters : Prop :=
  ∀ s t : State, step s = .next t →
    (t.inq = s.inq ∨ ∃ x d, s.inq = x :: t.inq ∧ fetchDecode s = .ok (.inp d)) ∧
    (t.lastOut = s.lastOut ∨
      ∃ a, fetchDecode s = .ok (.out a) ∧ Arg.readable s a ∧ t.lastOut = some (Arg.value s a))

/-- R64: an instruction that completes without a jump advances ip by its length `1 + n`, which for JT and JF is `ip + 3`.
An IN that finds no input and HLT do not complete in this sense (90_conflicts.md C5). -/
def Obligations.CompletingAdvancesByTheLength : Prop :=
  ∀ (i : Instr) (s t : State), exec i s = .next t → (∀ f, t.status ≠ .faulted f) →
    (i.op ≠ .jt → i.op ≠ .jf → i.op ≠ .hlt → (i.op = .inp → s.inq ≠ []) → t.ip = s.ip + (1 + i.op.arity : Nat)) ∧
    (∀ a b, i = .jt a b → Arg.value s a = 0 → t.ip = s.ip + 3) ∧
    ∀ a b, i = .jf a b → Arg.value s a ≠ 0 → t.ip = s.ip + 3

/-- A step that faults changes nothing but status, and one that ends in NeedsInput changes nothing at all (R82, the
spec's decision D6). -/
def Obligations.FaultsArePrecise : Prop :=
  (∀ (s t : State) (f : FaultRecord), step s = .next t → t.status = .faulted f →
    t = { s with status := .faulted f } ∧ (cycle s).event = .fault f) ∧
  ∀ s : State, (cycle s).event = .needsInput → (cycle s).state = s

/-- R24: the halted flag is set only by the halt instruction, it is never cleared by a step or a host-port call, and the
host can read it. -/
def Obligations.HaltedIsSetByHaltAloneAndNeverCleared : Prop :=
  (∀ s t : State, step s = .next t → t.halted = true → s.halted = false ∧ fetchDecode s = .ok .hlt) ∧
  (∀ s : State, s.halted = true → (∀ t, step s ≠ .next t) ∧
    ∀ n inp r t, resume n s inp = some (r, t) → t.halted = true) ∧
  ∀ s : State, s.halted = true ↔ (State.hostView s).1 = .halted

/-- Nothing but the word 99 at ip halts the core: a Ready instance's step halts exactly when ip is not negative and the
word there is 99 (R140, R141). -/
def Obligations.OnlyTheWord99Halts : Prop :=
  ∀ s : State, s.status = .ready →
    ((∃ t, step s = .next t ∧ t.status = .halted) ↔ 0 ≤ s.ip ∧ s.load s.ip.toNat = 99)

/-! ## Invariants -/

/-- The invariant holds after reset (R35; the canonical form is the model's, log entry 1). -/
def Obligations.InvariantHoldsAtReset : Prop := State.Inv State.reset

/-- The invariant holds of every constructed instance (R180; the canonical form is the model's, log entry 1). -/
def Obligations.InvariantHoldsAtConstruction : Prop := ∀ image : List Int, State.Inv (State.construct image)

/-- Every step keeps the invariant: memory stays in canonical form (the model's choice, log entry 1), and a fault record has the shape of R152 for its code
and names the ip and the word that still stand in the state (R82, R152; the record is the spec's decision D10). -/
def Obligations.StepKeepsTheInvariant : Prop :=
  ∀ s t : State, State.Inv s → step s = .next t → State.Inv t

/-- Every host-port call that returns keeps the invariant (R165, R166): memory in canonical form, which is the model's
choice, log entry 1, and a fault record of the shape of R152, which is the spec's decision D10. -/
def Obligations.HostCallKeepsTheInvariant : Prop :=
  ∀ (n : Nat) (s t : State) (inp : Option Int) (r : ResumeResult), State.Inv s → resume n s inp = some (r, t) →
    State.Inv t

/-- In every state an instance can reach, a recorded fault is the one its offending instruction raises: stepping the same
state as Ready raises that record again ("fails deterministically at the offending instruction", R19, R82). -/
def Obligations.RecordedFaultIsTheInstructions : Prop :=
  ∀ (image : List Int) (s : State) (f : FaultRecord), Reachable image s → s.status = .faulted f →
    cycle (s.setStatus .ready) = ⟨.fault f, s⟩

/-! ## The host port -/

/-- A call on a halted instance returns ResumeHalted and a call on a faulted one the recorded fault again; neither changes
the state or appends the input (R167, R168; the spec's decisions D11 and D12). -/
def Obligations.StoppedInstanceRejectsCalls : Prop :=
  ∀ (n : Nat) (s : State) (inp : Option Int),
    (s.status = .halted → resume n s inp = some (.resumeHalted, s)) ∧
    ∀ f, s.status = .faulted f → resume n s inp = some (.fault f, s)

/-- A call on a Ready instance appends its input, if any, at the tail of inq and runs (R165). -/
def Obligations.CallAppendsAtTheTail : Prop :=
  ∀ (n : Nat) (s : State) (x : Int), s.status = .ready →
    resume n s (some x) = run n { s with inq := s.inq ++ [x] } ∧ resume n s none = run n s

/-- The run loop under fuel is the run loop of R166: some fuel gives a result exactly when the loop without fuel ends with
it, so running out of fuel is never a result (R170). -/
def Obligations.FuelOnlyBoundsTheRun : Prop :=
  ∀ (s t : State) (r : ResumeResult), (∃ n, run n s = some (r, t)) ↔ Runs s r t

/-- More fuel never changes a result, and a run has at most one (R19: executions are deterministic). -/
def Obligations.MoreFuelGivesTheSameResult : Prop :=
  (∀ (n m : Nat) (s : State) (x : ResumeResult × State), n ≤ m → run n s = some x → run m s = some x) ∧
  ∀ (s t u : State) (r q : ResumeResult), Runs s r t → Runs s q u → r = q ∧ t = u

/-- The ends of a call that ran (R165, R166, R173): suspended with Output leaves the instance Ready and the value in
lastOut, with NeedsInput Ready and waiting at an IN, finished Halted, failed Faulted with the record returned; a run is
never rejected. -/
def Obligations.RunEndsAsTheStatusSays : Prop :=
  ∀ (n : Nat) (s t : State) (r : ResumeResult), s.status = .ready → run n s = some (r, t) →
    match r with
    | .output v => t.status = .ready ∧ t.lastOut = some v
    | .needsInput => State.waiting t
    | .halted => t.status = .halted
    | .fault f => t.status = .faulted f
    | .resumeHalted => False

/-- A waiting instance's retry (R33, R188): a call with no input returns NeedsInput and changes nothing; once the call
supplies `x`, the IN at ip stores it at the same target, moves on, and leaves the queue empty. -/
def Obligations.RetriedInputTakesTheSuppliedValue : Prop :=
  ∀ (n : Nat) (s : State) (d : Arg) (c : Nat) (x : Int), s.status = .ready → s.inq = [] →
    fetchDecode s = .ok (.inp d) → Arg.targets s d c →
    resume (n + 1) s none = some (.needsInput, s) ∧
    resume (n + 1) s (some x) = run n { s with mem := Memory.write s.mem c x, ip := s.ip + 2 }

/-- A taken JT or JF whose target is its own address re-executes for ever: no fuel makes the call return, and no run of it
ends (R110, R170). -/
def Obligations.JumpToItselfNeverReturns : Prop :=
  ∀ (s : State) (a b : Arg), Arg.readable s a → Arg.readable s b → Arg.value s b = s.ip →
    (fetchDecode s = .ok (.jt a b) ∧ Arg.value s a ≠ 0 ∨ fetchDecode s = .ok (.jf a b) ∧ Arg.value s a = 0) →
    (∀ n, run n s = none) ∧ ∀ r t, ¬ Runs s r t

end
end

