-- ==== Sys2Proof/Laws/State.lean ====
section
/-! SUPPORT. Laws/State.lean: one lemma per field per update of the state, so that no proof unfolds a record update. -/

namespace Sys2Proof.Machine

@[simp] theorem State.store_mem (s : State) (a : Nat) (v : Int) : (s.store a v).mem = Memory.write s.mem a v := rfl
@[simp] theorem State.store_ip (s : State) (a : Nat) (v : Int) : (s.store a v).ip = s.ip := rfl
@[simp] theorem State.store_rb (s : State) (a : Nat) (v : Int) : (s.store a v).rb = s.rb := rfl
@[simp] theorem State.store_inq (s : State) (a : Nat) (v : Int) : (s.store a v).inq = s.inq := rfl
@[simp] theorem State.store_lastOut (s : State) (a : Nat) (v : Int) : (s.store a v).lastOut = s.lastOut := rfl
@[simp] theorem State.store_status (s : State) (a : Nat) (v : Int) : (s.store a v).status = s.status := rfl

@[simp] theorem State.setIp_mem (s : State) (v : Int) : (s.setIp v).mem = s.mem := rfl
@[simp] theorem State.setIp_ip (s : State) (v : Int) : (s.setIp v).ip = v := rfl
@[simp] theorem State.setIp_rb (s : State) (v : Int) : (s.setIp v).rb = s.rb := rfl
@[simp] theorem State.setIp_inq (s : State) (v : Int) : (s.setIp v).inq = s.inq := rfl
@[simp] theorem State.setIp_lastOut (s : State) (v : Int) : (s.setIp v).lastOut = s.lastOut := rfl
@[simp] theorem State.setIp_status (s : State) (v : Int) : (s.setIp v).status = s.status := rfl

@[simp] theorem State.advance_mem (s : State) (n : Nat) : (s.advance n).mem = s.mem := rfl
@[simp] theorem State.advance_ip (s : State) (n : Nat) : (s.advance n).ip = s.ip + n := rfl
@[simp] theorem State.advance_rb (s : State) (n : Nat) : (s.advance n).rb = s.rb := rfl
@[simp] theorem State.advance_inq (s : State) (n : Nat) : (s.advance n).inq = s.inq := rfl
@[simp] theorem State.advance_lastOut (s : State) (n : Nat) : (s.advance n).lastOut = s.lastOut := rfl
@[simp] theorem State.advance_status (s : State) (n : Nat) : (s.advance n).status = s.status := rfl

@[simp] theorem State.setRb_mem (s : State) (v : Int) : (s.setRb v).mem = s.mem := rfl
@[simp] theorem State.setRb_ip (s : State) (v : Int) : (s.setRb v).ip = s.ip := rfl
@[simp] theorem State.setRb_rb (s : State) (v : Int) : (s.setRb v).rb = v := rfl
@[simp] theorem State.setRb_inq (s : State) (v : Int) : (s.setRb v).inq = s.inq := rfl
@[simp] theorem State.setRb_lastOut (s : State) (v : Int) : (s.setRb v).lastOut = s.lastOut := rfl
@[simp] theorem State.setRb_status (s : State) (v : Int) : (s.setRb v).status = s.status := rfl

@[simp] theorem State.setLastOut_mem (s : State) (v : Int) : (s.setLastOut v).mem = s.mem := rfl
@[simp] theorem State.setLastOut_ip (s : State) (v : Int) : (s.setLastOut v).ip = s.ip := rfl
@[simp] theorem State.setLastOut_rb (s : State) (v : Int) : (s.setLastOut v).rb = s.rb := rfl
@[simp] theorem State.setLastOut_inq (s : State) (v : Int) : (s.setLastOut v).inq = s.inq := rfl
@[simp] theorem State.setLastOut_lastOut (s : State) (v : Int) : (s.setLastOut v).lastOut = some v := rfl
@[simp] theorem State.setLastOut_status (s : State) (v : Int) : (s.setLastOut v).status = s.status := rfl

@[simp] theorem State.setStatus_mem (s : State) (st : Status) : (s.setStatus st).mem = s.mem := rfl
@[simp] theorem State.setStatus_ip (s : State) (st : Status) : (s.setStatus st).ip = s.ip := rfl
@[simp] theorem State.setStatus_rb (s : State) (st : Status) : (s.setStatus st).rb = s.rb := rfl
@[simp] theorem State.setStatus_inq (s : State) (st : Status) : (s.setStatus st).inq = s.inq := rfl
@[simp] theorem State.setStatus_lastOut (s : State) (st : Status) : (s.setStatus st).lastOut = s.lastOut := rfl
@[simp] theorem State.setStatus_status (s : State) (st : Status) : (s.setStatus st).status = st := rfl

@[simp] theorem State.setInq_mem (s : State) (q : List Int) : (s.setInq q).mem = s.mem := rfl
@[simp] theorem State.setInq_ip (s : State) (q : List Int) : (s.setInq q).ip = s.ip := rfl
@[simp] theorem State.setInq_rb (s : State) (q : List Int) : (s.setInq q).rb = s.rb := rfl
@[simp] theorem State.setInq_inq (s : State) (q : List Int) : (s.setInq q).inq = q := rfl
@[simp] theorem State.setInq_lastOut (s : State) (q : List Int) : (s.setInq q).lastOut = s.lastOut := rfl
@[simp] theorem State.setInq_status (s : State) (q : List Int) : (s.setInq q).status = s.status := rfl

@[simp] theorem State.raise_mem (s : State) (f : FaultRecord) : (State.raise f s).mem = s.mem := rfl
@[simp] theorem State.raise_ip (s : State) (f : FaultRecord) : (State.raise f s).ip = s.ip := rfl
@[simp] theorem State.raise_rb (s : State) (f : FaultRecord) : (State.raise f s).rb = s.rb := rfl
@[simp] theorem State.raise_inq (s : State) (f : FaultRecord) : (State.raise f s).inq = s.inq := rfl
@[simp] theorem State.raise_lastOut (s : State) (f : FaultRecord) : (State.raise f s).lastOut = s.lastOut := rfl
@[simp] theorem State.raise_status (s : State) (f : FaultRecord) : (State.raise f s).status = .faulted f := rfl

@[simp] theorem State.store_load (s : State) (a b : Nat) (v : Int) :
    (s.store a v).load b = Memory.read (Memory.write s.mem a v) b := rfl

end Sys2Proof.Machine
end

