-- ==== Sys2Proof/Laws/Memory.lean ====
section
/-! SUPPORT. Laws/Memory.lean: every memory operation keeps the canonical form, and reset and construction have it. -/

namespace Sys2Proof.Machine

theorem Memory.wf_nil : Memory.wf [] := ⟨.nil, by simp⟩

/-- A list in canonical form, taken apart at its first cell. -/
theorem Memory.wf_cons_iff {c : Nat × Int} {m : Memory} :
    Memory.wf (c :: m) ↔ (∀ d ∈ m, c.1 < d.1) ∧ c.2 ≠ Config.unwritten ∧ Memory.wf m := by
  simp only [Memory.wf, List.pairwise_cons, List.forall_mem_cons]
  tauto

theorem Memory.cons_wf {a : Nat} {v : Int} {m : Memory} (h : Memory.wf m) (ha : ∀ d ∈ m, a < d.1) :
    Memory.wf (Memory.cons a v m) := by
  unfold Memory.cons
  split
  · exact h
  · exact Memory.wf_cons_iff.2 ⟨ha, ‹_›, h⟩

theorem Memory.mem_cons {a : Nat} {v : Int} {m : Memory} {c : Nat × Int} (h : c ∈ Memory.cons a v m) :
    c = (a, v) ∨ c ∈ m := by
  unfold Memory.cons at h
  split at h
  · exact .inr h
  · exact List.mem_cons.1 h

/-- A cell of the memory after a write is the one written or was there before. -/
theorem Memory.mem_write {m : Memory} {a : Nat} {v : Int} {c : Nat × Int} (h : c ∈ Memory.write m a v) :
    c = (a, v) ∨ c ∈ m := by
  induction m with
  | nil => exact Memory.mem_cons h
  | cons d m ih =>
    simp only [Memory.write] at h
    split_ifs at h
    · exact Memory.mem_cons h
    · exact (Memory.mem_cons h).imp_right (List.mem_cons_of_mem _)
    · rcases List.mem_cons.1 h with h | h
      · exact .inr (h ▸ List.mem_cons_self)
      · exact (ih h).imp_right (List.mem_cons_of_mem _)

/-- A write keeps the canonical form. -/
theorem Memory.write_wf {m : Memory} (h : Memory.wf m) (a : Nat) (v : Int) : Memory.wf (Memory.write m a v) := by
  induction m with
  | nil => exact Memory.cons_wf h (by simp)
  | cons d m ih =>
    obtain ⟨hlt, hne, hm⟩ := Memory.wf_cons_iff.1 h
    simp only [Memory.write]
    split_ifs with h1 h2
    · refine Memory.cons_wf h fun e he => ?_
      rcases List.mem_cons.1 he with rfl | he
      · exact h1
      · exact h1.trans (hlt e he)
    · exact Memory.cons_wf hm fun e he => h2 ▸ hlt e he
    · refine Memory.wf_cons_iff.2 ⟨fun e he => ?_, hne, ih hm⟩
      rcases Memory.mem_write he with rfl | he
      · exact lt_of_le_of_ne (not_lt.1 h1) (Ne.symm h2)
      · exact hlt e he

theorem Memory.writeWords_wf {m : Memory} (h : Memory.wf m) (a : Nat) (ws : List Int) :
    Memory.wf (Memory.writeWords m a ws) := by
  induction ws generalizing m a with
  | nil => exact h
  | cons w ws ih => exact ih (Memory.write_wf h a w) (a + 1)

theorem State.reset_mem_wf : Memory.wf State.reset.mem := Memory.wf_nil

theorem State.construct_mem_wf (image : List Int) : Memory.wf (State.construct image).mem :=
  Memory.writeWords_wf Memory.wf_nil 0 image

theorem State.store_mem_wf {s : State} (h : Memory.wf s.mem) (a : Nat) (v : Int) :
    Memory.wf (s.store a v).mem := Memory.write_wf h a v

end Sys2Proof.Machine
end

