-- ==== Sys2Proof/Laws/Operands.lean ====
section
/-! SUPPORT. Laws/Operands.lean: what the addressing unit and the shared instruction shapes can do, said once. -/

namespace Sys2Proof.Machine

/-- A read argument either computes a negative address and faults on it, or is readable and gives its value. -/
theorem readArg_cases (s : State) (w : Int) (k : Nat) (a : Arg) :
    (∃ x, Arg.address? s.rb a = some x ∧ x < 0 ∧ readArg s w k a = .error (addressFault s.ip w k x)) ∨
    (Arg.readable s a ∧ readArg s w k a = .ok (Arg.value s a)) := by
  obtain ⟨m, r⟩ := a
  cases m
  · rcases lt_or_ge r 0 with h | h
    · exact .inl ⟨r, rfl, h, by simp [readArg, Arg.address?, checkAddress, h]⟩
    · refine .inr ⟨fun x hx => ?_, by simp [readArg, Arg.address?, checkAddress, not_lt.2 h, Arg.value]⟩
      simp only [Arg.address?, Option.some.injEq] at hx
      exact hx ▸ h
  · exact .inr ⟨fun x hx => by simp [Arg.address?] at hx, rfl⟩
  · rcases lt_or_ge (s.rb + r) 0 with h | h
    · exact .inl ⟨s.rb + r, rfl, h, by simp [readArg, Arg.address?, checkAddress, h]⟩
    · refine .inr ⟨fun x hx => ?_, by simp [readArg, Arg.address?, checkAddress, not_lt.2 h, Arg.value]⟩
      simp only [Arg.address?, Option.some.injEq] at hx
      exact hx ▸ h

/-- A write argument is immediate, or computes a negative address, or names a cell. -/
theorem writeArg_cases (s : State) (w : Int) (k : Nat) (a : Arg) :
    (Arg.address? s.rb a = none ∧ writeArg s w k a = .error (targetModeFault s.ip w k)) ∨
    (∃ x, Arg.address? s.rb a = some x ∧ x < 0 ∧ writeArg s w k a = .error (addressFault s.ip w k x)) ∨
    (∃ t, Arg.targets s a t ∧ writeArg s w k a = .ok t) := by
  unfold writeArg
  cases h : Arg.address? s.rb a with
  | none => exact .inl ⟨rfl, rfl⟩
  | some x =>
    rcases lt_or_ge x 0 with hx | hx
    · exact .inr (.inl ⟨x, rfl, hx, by simp [checkAddress, hx]⟩)
    · refine .inr (.inr ⟨x.toNat, ?_, by simp [checkAddress, not_lt.2 hx]⟩)
      rw [Arg.targets, h, Int.toNat_of_nonneg hx]

/-- A step of the three-argument shape raises what its arguments raise, or writes one cell and moves on. -/
theorem binary_cases (w : Int) (a b d : Arg) (alu : Int → Int → Int) (s : State) :
    (∃ f, evalRRW s w a b d = .error f ∧ binary w a b d alu s = .raise f s) ∨
    (∃ v1 v2 t, evalRRW s w a b d = .ok (v1, v2, t) ∧
      binary w a b d alu s = .continue ((s.store t (alu v1 v2)).advance 4)) := by
  unfold binary
  cases h : evalRRW s w a b d with
  | error f => exact .inl ⟨f, rfl, rfl⟩
  | ok x => exact .inr ⟨x.1, x.2.1, x.2.2, rfl, rfl⟩

/-- A step of the jump shape raises what its arguments raise, or only sets ip. -/
theorem jump_cases (w : Int) (a b : Arg) (taken : Int → Bool) (s : State) :
    (∃ f, evalRR s w a b = .error f ∧ jump w a b taken s = .raise f s) ∨
    (∃ v1 v2, evalRR s w a b = .ok (v1, v2) ∧
      jump w a b taken s = .continue (if taken v1 then s.setIp v2 else s.advance 3)) := by
  unfold jump
  cases h : evalRR s w a b with
  | error f => exact .inl ⟨f, rfl, rfl⟩
  | ok x => exact .inr ⟨x.1, x.2, rfl, rfl⟩

end Sys2Proof.Machine
end

