-- ==== Sys2Proof/Laws/PerInstr.lean ====
section
/-! SUPPORT. Laws/PerInstr.lean: statements made per instruction, one lemma per constructor of Instr. -/

namespace Sys2Proof.Laws.Length

/-- The encoding of an instruction is as many words long as its opcode says, and has an operand word for each argument
(30_encoding.md R61, R74). -/
def Statement (i : Instr) : Prop := (encode i).length = i.length ∧ i.args.length = i.op.arity

theorem add (a b d : Arg) : Statement (.add a b d) := ⟨rfl, rfl⟩
theorem mul (a b d : Arg) : Statement (.mul a b d) := ⟨rfl, rfl⟩
theorem inp (d : Arg) : Statement (.inp d) := ⟨rfl, rfl⟩
theorem out (a : Arg) : Statement (.out a) := ⟨rfl, rfl⟩
theorem jt (a b : Arg) : Statement (.jt a b) := ⟨rfl, rfl⟩
theorem jf (a b : Arg) : Statement (.jf a b) := ⟨rfl, rfl⟩
theorem lt (a b d : Arg) : Statement (.lt a b d) := ⟨rfl, rfl⟩
theorem eq (a b d : Arg) : Statement (.eq a b d) := ⟨rfl, rfl⟩
theorem arb (a : Arg) : Statement (.arb a) := ⟨rfl, rfl⟩
theorem hlt : Statement .hlt := ⟨rfl, rfl⟩

end Sys2Proof.Laws.Length
end

