-- ==== Sys2Proof/Laws/Step.lean ====
section
/-! SUPPORT. Laws/Step.lean: how `exec`, `result`, `step` and `fetchDecode` stand to each other. -/

namespace Sys2Proof.Machine

/-- `exec` is `result` less its event. -/
theorem exec_eq_result (i : Instr) (s : State) : exec i s = (result i s).outcome := by
  cases i <;> rfl

/-- Every instruction answers a next state. -/
theorem exec_next_iff {i : Instr} {s t : State} : exec i s = .next t ↔ (result i s).state = t := by
  rw [exec_eq_result]
  simp [StepResult.outcome]

/-- The three things fetch and decode can do. -/
theorem fetchDecode_cases (s : State) :
    (s.ip < 0 ∧ fetchDecode s = .error (fetchFault s.ip)) ∨
    (0 ≤ s.ip ∧ ∃ e, decodeHead (s.load s.ip.toNat) = .error e ∧
      fetchDecode s = .error (DecodeFault.record s.ip (s.load s.ip.toNat) e)) ∨
    (0 ≤ s.ip ∧ ∃ h, decodeHead (s.load s.ip.toNat) = .ok h ∧
      fetchDecode s = .ok (h.build fun k => s.load (s.ip.toNat + k))) := by
  unfold fetchDecode fetch
  rcases lt_or_ge s.ip 0 with h | h
  · exact .inl ⟨h, by simp [h]⟩
  · simp only [if_neg (not_lt.2 h)]
    cases hd : decodeHead (Memory.read s.mem s.ip.toNat) with
    | error e => exact .inr (.inl ⟨h, e, hd, rfl⟩)
    | ok i => exact .inr (.inr ⟨h, i, hd, rfl⟩)

/-- A step that answers a next state ran from Ready, and either took a fetch or decode fault or ran an instruction. -/
theorem step_cases {s t : State} (h : step s = .next t) :
    s.status = .ready ∧
      ((∃ f, fetchDecode s = .error f ∧ t = s.raise f) ∨ ∃ i, fetchDecode s = .ok i ∧ exec i s = .next t) := by
  unfold step at h
  cases hs : s.status with
  | halted => simp [hs] at h
  | faulted f => simp [hs] at h
  | ready =>
    simp only [hs] at h
    cases hd : fetchDecode s with
    | error f =>
      simp only [hd, StepResult.outcome, StepResult.raise, Host.Outcome.next.injEq] at h
      exact ⟨rfl, .inl ⟨f, rfl, h.symm⟩⟩
    | ok i =>
      simp only [hd] at h
      exact ⟨rfl, .inr ⟨i, rfl, h⟩⟩

end Sys2Proof.Machine
end

