-- ==== Sys2Proof/Machine/Assembly.lean ====
section
/-! DEFINITION. Machine/Assembly.lean: the disassembly of an instruction in the spec's syntax (30_encoding.md R75: "The
disassembly of an instruction is its assembly"). -/

namespace Sys2Proof.Machine

/-- The mnemonic (R62). -/
def opName : Op → String
  | .add => "ADD"
  | .mul => "MUL"
  | .inp => "IN"
  | .out => "OUT"
  | .jt => "JT"
  | .jf => "JF"
  | .lt => "LT"
  | .eq => "EQ"
  | .arb => "ARB"
  | .hlt => "HLT"

/-- An operand: `[n]`, `#n`, `[rb+n]` or `[rb-n]` (R75). -/
def argText (a : Arg) : String :=
  match a.mode with
  | .position => "[" ++ toString a.raw ++ "]"
  | .immediate => "#" ++ toString a.raw
  | .relative => "[rb" ++ (if a.raw < 0 then "" else "+") ++ toString a.raw ++ "]"

/-- One line: the mnemonic, then the operands in argument order (R75). -/
def disassemble (i : Instr) : String :=
  match i.args with
  | [] => opName i.op
  | as => opName i.op ++ " " ++ ", ".intercalate (as.map argText)

end Sys2Proof.Machine
end

