-- ==== Sys2Proof/Tests/Slice0.lean ====
section
/-! SUPPORT. Tests/Slice0.lean: tests whose expected results are the spec's own (95_test_vectors.md and the examples of
the rules), and for each obligation with hypotheses a witness that meets them. -/

namespace Sys2Proof.Tests
open Sys2Proof.Machine

/-- `[n]`, `#n` and `[rb+n]` of R75. -/
abbrev pos (n : Int) : Arg := ⟨.position, n⟩
abbrev imm (n : Int) : Arg := ⟨.immediate, n⟩
abbrev rel (n : Int) : Arg := ⟨.relative, n⟩

/-- A constructed instance. -/
abbrev st (image : List Int) : State := State.construct image

/-- What one step leaves, read by `f`. -/
def after {α : Type} (s : State) (f : State → α) : Option α :=
  match step s with
  | .next t => some (f t)
  | .fault _ | .refused _ => none

/-! ## WellFormed: an ill-formed term for each check -/

theorem test_wf_add : (Instr.add (pos 1) (pos 2) (imm 3)).wellFormed = false := by decide
theorem test_wf_mul : (Instr.mul (pos 1) (pos 2) (imm 3)).wellFormed = false := by decide
theorem test_wf_inp : (Instr.inp (imm 3)).wellFormed = false := by decide
theorem test_wf_lt : (Instr.lt (pos 1) (pos 2) (imm 3)).wellFormed = false := by decide
theorem test_wf_eq : (Instr.eq (pos 1) (pos 2) (imm 3)).wellFormed = false := by decide
theorem test_wf_others : (Instr.add (imm 1) (imm 2) (rel 3)).wellFormed ∧ (Instr.out (imm 1)).wellFormed ∧
    (Instr.jt (imm 1) (imm 2)).wellFormed ∧ (Instr.arb (imm 1)).wellFormed ∧ Instr.hlt.wellFormed := by decide

/-! ## Decoding: words written out from R60 and R73 (`M3 M2 M1 O O`, most significant digit first) -/

/-- `M3 M2 M1 0 1` with 2, 2, 2 (L2-A). -/
theorem test_decode_add : decode [22201, 7, 8, 9] = .ok (.add (rel 7) (rel 8) (rel 9)) := by decide
/-- `M3 M2 M1 0 2` with 0, 1, 0 (L2-A). -/
theorem test_decode_mul : decode [1002, 7, 8, 9] = .ok (.mul (pos 7) (imm 8) (pos 9)) := by decide
/-- `M1 0 3` (L2-A). -/
theorem test_decode_inp : decode [3, 50] = .ok (.inp (pos 50)) ∧ decode [203, 50] = .ok (.inp (rel 50)) := by decide
/-- `M1 0 4` (L2-A). -/
theorem test_decode_out : decode [104, -42] = .ok (.out (imm (-42))) ∧ decode [4, 9] = .ok (.out (pos 9)) := by decide
/-- `M2 M1 0 5` with 2, 1 (L2-A). -/
theorem test_decode_jt : decode [2105, 1, 9] = .ok (.jt (imm 1) (rel 9)) := by decide
/-- `M2 M1 0 6` with 1, 0 (the quine). -/
theorem test_decode_jf : decode [1006, 101, 0] = .ok (.jf (pos 101) (imm 0)) := by decide
/-- `M3 M2 M1 0 7` with 2, 1, 1 (L2-A). -/
theorem test_decode_lt : decode [21107, 1, 2, 3] = .ok (.lt (imm 1) (imm 2) (rel 3)) := by decide
/-- `M3 M2 M1 0 8` with 0, 1, 0 (the quine). -/
theorem test_decode_eq : decode [1008, 100, 16, 101] = .ok (.eq (pos 100) (imm 16) (pos 101)) := by decide
/-- `M1 0 9` (L2-A). -/
theorem test_decode_arb : decode [209, 1] = .ok (.arb (rel 1)) ∧ decode [109, 1] = .ok (.arb (imm 1)) := by decide
/-- `9 9`. -/
theorem test_decode_hlt : decode [99] = .ok .hlt := by decide
/-- The unknown opcodes of L2-A. -/
theorem test_decode_unknown :
    ∀ w ∈ [(0 : Int), 50, -1, 199, 1099, 1109, 10005, 100001], decode [w] = .error .unknownOpcode := by decide
/-- The invalid modes of L2-A. -/
theorem test_decode_modes : ∀ x ∈ [((301 : Int), 1, 3), (905, 1, 9), (103, 1, 1), (10001, 3, 1), (11101, 3, 1), (32201, 3, 3),
    (30301, 1, 3)], decode [x.1] = .error (.invalidMode x.2.1 x.2.2) := by decide
/-- R75's examples of assembly. -/
theorem test_encode : encode (.add (pos 100) (imm 1) (pos 100)) = [1001, 100, 1, 100] ∧
    encode (.out (rel (-1))) = [204, -1] ∧ encode (.arb (imm 1)) = [109, 1] ∧ encode .hlt = [99] := by decide
theorem test_disassemble : disassemble (.add (pos 100) (imm 1) (pos 100)) = "ADD [100], #1, [100]" ∧
    disassemble (.out (rel (-1))) = "OUT [rb-1]" ∧ disassemble .hlt = "HLT" := by decide +kernel
/-- R76's expansions. -/
theorem test_pseudo : encode (Instr.jmp (imm 7)) = [1105, 1, 7] ∧ encode (Instr.mov (pos 11) (pos 4)) = [1001, 11, 0, 4] := by
  decide
theorem test_table_word : decodeTableWord 8 99 = some .hlt ∧ decodeTableWord 16 1102 = some (.mul (imm 0) (imm 0) (pos 0)) ∧
    decodeTableWord 8 50 = none := by decide

/-! ## One step each: 95_test_vectors.md L2-B to L2-H -/

theorem test_add : after (st [1, 5, 6, 7, 0, 30, 40]) (fun t => (t.load 7, t.ip)) = some (70, 4) := by decide
theorem test_add_own_word : after (st [1101, 5, 6, 0]) (fun t => (t.load 0, t.ip)) = some (11, 4) := by decide
theorem test_mul_large : after (st [1102, 34915192, 34915192, 7]) (fun t => t.load 7) = some 1219070632396864 := by decide
theorem test_mul_sign : after (st [1102, -3, 4, 5]) (fun t => t.load 5) = some (-12) := by decide
theorem test_inp : after { st [3, 50] with inq := [7, 8] } (fun t => (t.load 50, t.inq, t.ip)) = some (7, [8], 2) := by decide
theorem test_inp_waits : after (st [3, 5, 99]) id = some (st [3, 5, 99]) := by decide
theorem test_out : after (st [104, -42, 99]) (fun t => (t.lastOut, t.ip, t.status)) = some (some (-42), 2, .ready) := by decide
theorem test_jt_memory : after (st [5, 3, 4, 1, 7]) (·.ip) = some 7 := by decide
theorem test_jt_negative : after (st [1105, -1, 9]) (·.ip) = some 9 := by decide
theorem test_jf : after (st [1106, 0, 9]) (·.ip) = some 9 ∧ after (st [1106, 5, 9]) (·.ip) = some 3 := by decide
theorem test_lt : after (st [1107, -5, 3, 5]) (·.load 5) = some 1 ∧ after (st [1107, 3, 3, 5]) (·.load 5) = some 0 := by decide
theorem test_eq : after (st [1108, 7, 7, 5]) (·.load 5) = some 1 ∧ after (st [1108, 7, -7, 5]) (·.load 5) = some 0 := by decide
theorem test_arb : after (st [9, 3, 99, -4]) (fun t => (t.rb, t.ip)) = some (-4, 2) := by decide
theorem test_arb_relative : after (st [209, 1, 99]) (·.rb) = some 1 := by decide
theorem test_hlt : after (st [99]) (·.status) = some .halted := by decide
/-- L2-B: the target is `rb + -4`. -/
theorem test_relative_target : after { st [21101, 2, 3, -4] with rb := 10 } (·.load 6) = some 5 := by decide
/-- L2-B: the lowest argument is reported, and decoding comes before operands. -/
theorem test_fault_order :
    after (st [1, -2, -3, 5]) (·.status) = some (.faulted ⟨.negativeAddress, 0, some 1, 1, some (-2)⟩) ∧
    after (st [30001, -1, -1, 0]) (·.status) = some (.faulted ⟨.invalidAddressingMode, 0, some 30001, 3, some 3⟩) := by decide
/-- L2-D: the address is checked before the queue. -/
theorem test_inp_address_first :
    after (st [203, -1, 99]) (·.status) = some (.faulted ⟨.negativeAddress, 0, some 203, 1, some (-1)⟩) := by decide
/-- L2-E: the fetch after a jump to -7. -/
theorem test_fetch_fault : after { st [99] with ip := -7 } (·.status) =
    some (.faulted ⟨.negativeAddress, -7, none, 0, some (-7)⟩) := by decide
/-- L2-H: a halted instance rejects the call and the 3 is not appended. -/
theorem test_resume_halted :
    resume 1 ((st [99]).setStatus .halted) (some 3) = some (.resumeHalted, (st [99]).setStatus .halted) := by decide
/-- L1-3: the call returns the output. -/
theorem test_resume_output : (resume 1 (st [104, 1125899906842624, 99]) none).map Prod.fst =
    some (.output 1125899906842624) := by decide
/-- L2-D, first row. -/
theorem test_resume_needs_input : resume 1 (st [3, 5, 99]) none = some (.needsInput, st [3, 5, 99]) := by decide
/-- The host's placement of a word is what the next step runs. -/
theorem test_fetch_word : after (State.reset.withFetchWord 8 99) (·.status) = some .halted ∧
    after (State.reset.withFetchWord 16 1102) (fun t => (t.load 0, t.ip)) = some (0, 4) := by decide
/-- The cause codes of R151. -/
theorem test_codes : FaultCode.unknownOpcode.number = 2 ∧ FaultCode.invalidAddressingMode.number = 3 ∧
    FaultCode.negativeAddress.number = 4 ∧ ResumeResult.resumeHalted.errorCode? = some 5 := by decide

/-! ## Witnesses: a state and operands that meet an obligation's hypotheses, at the edges of each clause -/

theorem readable_imm (s : State) (n : Int) : Arg.readable s (imm n) := by simp [Arg.readable, Arg.address?]
theorem readable_pos (s : State) (n : Nat) : Arg.readable s (pos n) := by simp [Arg.readable, Arg.address?]
theorem targets_pos (s : State) (n : Nat) : Arg.targets s (pos n) n := rfl

/-- An instance whose rb is negative, so that `[rb+5]` is the cell 0. -/
abbrev low : State := { st [21101, 2, 3, 5, 99] with rb := -5 }

theorem witness_DecodeOfEncodeIsTheInstruction : (Instr.add (imm (-1)) (pos 0) (rel (-9))).wellFormed = true := by decide
theorem witness_EncodeOfDecodeIsTheWords : decode [22201, 7] = .ok (.add (rel 7) (rel 0) (rel 0)) := by decide
theorem witness_OpcodeTableIsTheSpecs :
    ∀ w ∈ [(0 : Int), 10, 98, 100], 0 ≤ w ∧ w % 100 ∉ [(1 : Int), 2, 3, 4, 5, 6, 7, 8, 9, 99] := by decide
theorem witness_ModesAreTheDecimalDigits : decodeHead 21107 = .ok ⟨.lt, [.immediate, .immediate, .relative]⟩ ∧
    [Mode.immediate, .immediate, .relative][1 - 1]? = some .immediate ∧
    [Mode.immediate, .immediate, .relative][3 - 1]? = some .relative := by decide
theorem witness_FirstBadModeIsReported : (0 : Int) ≤ 32201 ∧ (Op.add.code : Int) = 32201 % 100 ∧
    (32201 : Int) / 10 ^ (Op.add.arity + 2) = 0 ∧ (st [32201]).status = .ready ∧ 0 ≤ (st [32201]).ip ∧
    (st [32201]).load (st [32201]).ip.toNat = 32201 ∧ decodeHead 32201 = .error (.invalidMode 3 3) ∧
    decodeHead 103 = .error (.invalidMode 1 1) := by decide
theorem witness_DecodeFaultIsTaken : (st [50]).status = .ready ∧ 0 ≤ (st [50]).ip ∧
    decodeHead ((st [50]).load (st [50]).ip.toNat) = .error .unknownOpcode ∧
    decodeHead ((st [905]).load (st [905]).ip.toNat) = .error (.invalidMode 1 9) := by decide
theorem witness_NegativeIpFaultsAtFetch : ({ st [99] with ip := -1 } : State).status = .ready ∧
    ({ st [99] with ip := -1 } : State).ip < 0 := by decide
theorem witness_StepRunsTheDecodedInstruction : low.status = .ready ∧ 0 ≤ low.ip ∧
    decode [low.load low.ip.toNat, low.load (low.ip.toNat + 1), low.load (low.ip.toNat + 2), low.load (low.ip.toNat + 3)]
      = .ok (.add (imm 2) (imm 3) (rel 5)) := by decide
theorem witness_StepRunsTheEncodedInstruction : low.status = .ready ∧ 0 ≤ low.ip ∧
    (Instr.add (imm 2) (imm 3) (rel 5)).wellFormed = true ∧
    ∀ (k : Nat) (w : Int), (encode (.add (imm 2) (imm 3) (rel 5)))[k]? = some w → low.load (low.ip.toNat + k) = w := by
  refine ⟨rfl, by decide, by decide, fun k w h => ?_⟩
  have hk : ∀ k < 4, (encode (.add (imm 2) (imm 3) (rel 5)))[k]? = some (low.load (low.ip.toNat + k)) := by decide
  rcases lt_or_ge k 4 with h4 | h4
  · rw [hk k h4] at h
    exact Option.some.inj h
  · rw [List.getElem?_eq_none (by exact h4)] at h
    exact absurd h (by simp)
theorem witness_StepIsTheCycleState : State.reset.status = .ready := rfl
theorem witness_StoppedInstanceNeverSteps : ((st []).setStatus .halted).status = .halted ∧
    ((st []).raise (fetchFault (-1))).status = .faulted (fetchFault (-1)) ∧ (after (st [99]) id).isSome := by decide
theorem witness_RelativeEqualsPositionAtBaseZero : (st []).rb = 0 ∧ (0 : Int) ≤ 0 ∧ (-1 : Int) < 0 := by decide
theorem witness_NegativeAddressStopsEveryInstruction :
    (Instr.add (pos 4) (pos (-3)) (pos (-1))).wellFormed = true ∧
    firstNegative (st []).rb 1 (Instr.add (pos 4) (pos (-3)) (pos (-1))).args = some (2, -3) ∧
    firstNegative low.rb 1 (Instr.inp (rel 4)).args = some (1, -1) ∧
    firstNegative low.rb 1 (Instr.inp (rel 5)).args = none := by decide
theorem witness_ImmediateTargetIsInvalidMode : (Instr.eq (pos (-1)) (imm 0) (imm 3)).wellFormed = false := by decide

/-- Sources in memory and immediate, and a relative target at the lowest cell. -/
theorem witness_AddStoresTheSum : Arg.readable low (pos 0) ∧ Arg.readable low (imm (-2)) ∧ Arg.targets low (rel 5) 0 :=
  ⟨readable_pos low 0, readable_imm low (-2), rfl⟩
theorem witness_MulStoresTheProduct : Arg.readable low (pos 0) ∧ Arg.readable low (imm (-2)) ∧ Arg.targets low (rel 5) 0 :=
  witness_AddStoresTheSum
theorem witness_LessThanStoresOneOrZero :
    Arg.readable low (pos 0) ∧ Arg.readable low (imm (-2)) ∧ Arg.targets low (rel 5) 0 := witness_AddStoresTheSum
theorem witness_EqualsStoresOneOrZero :
    Arg.readable low (pos 0) ∧ Arg.readable low (imm (-2)) ∧ Arg.targets low (rel 5) 0 := witness_AddStoresTheSum
theorem witness_InputTakesTheOldestValue : Arg.targets (low.setInq [7]) (rel 5) 0 ∧ (low.setInq [7]).inq = 7 :: [] :=
  ⟨rfl, rfl⟩
theorem witness_InputWaitsOnAnEmptyQueue : Arg.targets low (rel 5) 0 ∧ low.inq = [] := ⟨rfl, rfl⟩
theorem witness_OutputEmitsTheValue : Arg.readable low (rel 5) := by
  intro x hx
  simp [Arg.address?] at hx
  omega
/-- A condition that is negative, one that is 0, and a negative target. -/
theorem witness_JumpIfTrueSetsIp : Arg.readable low (imm (-1)) ∧ Arg.value low (imm (-1)) ≠ 0 ∧ Arg.readable low (imm 0) ∧
    Arg.value low (imm 0) = 0 ∧ Arg.readable low (imm (-7)) :=
  ⟨readable_imm low (-1), by decide, readable_imm low 0, rfl, readable_imm low (-7)⟩
theorem witness_JumpIfFalseSetsIp : Arg.readable low (imm (-1)) ∧ Arg.value low (imm (-1)) ≠ 0 ∧ Arg.readable low (imm 0) ∧
    Arg.value low (imm 0) = 0 ∧ Arg.readable low (imm (-7)) := witness_JumpIfTrueSetsIp
theorem witness_AdjustAddsToTheBase : Arg.readable low (rel 5) := witness_OutputEmitsTheValue
theorem witness_PseudoInstructionsJumpAndMove : Arg.readable low (imm (-7)) ∧ Arg.readable low (pos 0) ∧
    Arg.targets low (rel 5) 0 := ⟨readable_imm low (-7), readable_pos low 0, rfl⟩
/-- The comparison holds with `#-2` first and not with it second. -/
theorem witness_ComparisonsDriveTheJumps : Memory.wf low.mem ∧ Arg.readable low (imm (-2)) ∧ Arg.readable low (imm 0) ∧
    Arg.targets low (rel 5) 0 ∧ Arg.value low (imm (-2)) < Arg.value low (imm 0) ∧
    ∀ t, Arg.readable t (imm 9) :=
  ⟨by decide, readable_imm low (-2), readable_imm low 0, rfl, by decide, fun t => readable_imm t 9⟩
theorem witness_MemWriteChangesOneCell : Memory.wf [(3, 1), (4, -1)] ∧ Memory.wf [] := by decide
theorem witness_FetchSeesEveryEarlierWrite : Memory.wf [(3, 1), (4, -1)] := by decide
theorem witness_MemoryIsDeterminedByItsReads : Memory.wf [(3, 1)] ∧ ∀ a, Memory.read [(3, 1)] a = Memory.read [(3, 1)] a :=
  ⟨by decide, fun _ => rfl⟩
theorem witness_GrowthPadsWithZeros : ([9, 9] : List Int).length ≤ 2 ∧ 2 < 3 ∧ 0 < ([9, 9] : List Int).length := by decide
/-- A target that names a cell, no target, and a target that names none. -/
theorem witness_OnlyTheTargetCellChanges : Memory.wf low.mem ∧ (∃ t, exec (.inp (rel 5)) low = .next t) ∧
    Arg.targets low (rel 5) 0 ∧ Instr.target? .hlt = none ∧ ∀ c, ¬ Arg.targets low (rel 4) c := by
  refine ⟨by decide, ⟨_, exec_eq_result _ _⟩, rfl, rfl, fun c h => ?_⟩
  simp [Arg.targets, Arg.address?] at h
theorem witness_RegistersChangeOnlyUnderTheirInstruction : ∃ t, exec (.arb (imm 1)) low = .next t := ⟨_, exec_eq_result _ _⟩
theorem witness_OnlyAdjustWritesTheBaseAndOnlyRelativeReadsIt :
    after (st [109, 1]) (fun t => decide (t.rb ≠ (st [109, 1]).rb)) = some true ∧
    (∀ a ∈ (Instr.arb (imm 1)).args, a.mode ≠ .relative) ∧ ∃ t, exec (.arb (imm 1)) low = .next t :=
  ⟨by decide, by decide, ⟨_, exec_eq_result _ _⟩⟩
theorem witness_OnlyInAndOutTouchThePortRegisters :
    after (st [104, 9]) (·.lastOut) = some (some 9) ∧ after { st [3, 9] with inq := [1] } (·.inq) = some [] := by decide
theorem witness_CompletingAdvancesByTheLength :
    (∃ t, exec (.out (imm 1)) low = .next t ∧ ∀ f, t.status ≠ .faulted f) ∧
    (∃ t, exec (.jt (imm 0) (imm 9)) low = .next t ∧ ∀ f, t.status ≠ .faulted f) ∧ Arg.value low (imm 0) = 0 ∧
    (∃ t, exec (.jf (imm 1) (imm 9)) low = .next t ∧ ∀ f, t.status ≠ .faulted f) ∧ Arg.value low (imm 1) ≠ 0 := by
  refine ⟨⟨_, exec_eq_result _ _, ?_⟩, ⟨_, exec_eq_result _ _, ?_⟩, rfl, ⟨_, exec_eq_result _ _, ?_⟩, by decide⟩ <;>
    exact fun f h => Status.noConfusion h
theorem witness_FaultsArePrecise : after (st [50]) (·.status) = some (.faulted ⟨.unknownOpcode, 0, some 50, 0, none⟩) ∧
    (cycle (st [3, 5, 99])).event = .needsInput := by decide
theorem witness_HaltedIsSetByHaltAloneAndNeverCleared : after (st [99]) (·.halted) = some true ∧
    ((st [99]).setStatus .halted).halted = true := by decide
theorem witness_OnlyTheWord99Halts : (st [99]).status = .ready ∧ 0 ≤ (st [99]).ip ∧
    (st [99]).load (st [99]).ip.toNat = 99 ∧ (st [199]).load (st [199]).ip.toNat ≠ 99 := by decide
theorem reset_inv : State.Inv State.reset := ⟨State.reset_mem_wf, trivial⟩
theorem witness_StepKeepsTheInvariant : State.Inv State.reset ∧ (after State.reset id).isSome = true := ⟨reset_inv, by decide⟩
theorem witness_HostCallKeepsTheInvariant : State.Inv State.reset ∧ (resume 1 State.reset (some 3)).isSome = true :=
  ⟨reset_inv, by decide⟩
theorem witness_RecordedFaultIsTheInstructions : ∃ s f, Reachable [50] s ∧ s.status = .faulted f := by
  cases h : step (st [50]) with
  | next t =>
    have ht : after (st [50]) (·.status) = some (.faulted ⟨.unknownOpcode, 0, some 50, 0, none⟩) := by decide
    rw [after, h] at ht
    exact ⟨t, _, .step .construct h, Option.some.inj ht⟩
  | fault f => exact absurd (show after (st [50]) id = none by rw [after, h]) (by decide)
  | refused r => exact absurd (show after (st [50]) id = none by rw [after, h]) (by decide)
theorem witness_StoppedInstanceRejectsCalls : (low.setStatus .halted).status = .halted ∧
    (low.raise (fetchFault (-1))).status = .faulted (fetchFault (-1)) := by decide
theorem witness_CallAppendsAtTheTail : low.status = .ready := rfl
theorem witness_MoreFuelGivesTheSameResult : (1 : Nat) ≤ 2 ∧ (run 1 (st [99])).isSome = true ∧
    Runs (st [99]) .halted (cycle (st [99])).state := ⟨by decide, by decide, .stops (by decide)⟩
/-- An end of each kind. -/
theorem witness_RunEndsAsTheStatusSays : (st []).status = .ready ∧
    (run 1 (st [104, 7])).map Prod.fst = some (.output 7) ∧ (run 1 (st [3, 5])).map Prod.fst = some .needsInput ∧
    (run 1 (st [99])).map Prod.fst = some .halted ∧
    (run 1 (st [])).map Prod.fst = some (.fault ⟨.unknownOpcode, 0, some 0, 0, none⟩) := by decide
theorem witness_RetriedInputTakesTheSuppliedValue : (st [3, 5]).status = .ready ∧ (st [3, 5]).inq = [] ∧
    fetchDecode (st [3, 5]) = .ok (.inp (pos 5)) ∧ Arg.targets (st [3, 5]) (pos 5) 5 := ⟨rfl, rfl, by decide, rfl⟩
theorem witness_JumpToItselfNeverReturns : Arg.readable (st [1105, 1, 0]) (imm 1) ∧ Arg.readable (st [1105, 1, 0]) (imm 0) ∧
    Arg.value (st [1105, 1, 0]) (imm 0) = (st [1105, 1, 0]).ip ∧
    fetchDecode (st [1105, 1, 0]) = .ok (.jt (imm 1) (imm 0)) ∧ Arg.value (st [1105, 1, 0]) (imm 1) ≠ 0 ∧
    fetchDecode (st [1106, 0, 0]) = .ok (.jf (imm 0) (imm 0)) ∧ Arg.value (st [1106, 0, 0]) (imm 0) = 0 :=
  ⟨readable_imm _ 1, readable_imm _ 0, rfl, by decide, by decide, by decide, rfl⟩

end Sys2Proof.Tests
end

section
/-! ## What the mode decoder reads from a word it accepts

Each accepted word is taken apart once: its operation, its modes, and that the operation and the modes make the word
again (30_encoding.md R60 to R75). -/

namespace Sys2Proof

/-- The opcode table has one row per operation (R62). -/
theorem Op.code_eq_of_ofCode? {c : Nat} {o : Op} (h : Op.ofCode? c = some o) : c = o.code := by
  unfold Op.ofCode? at h
  split at h <;> cases h <;> rfl

theorem Mode.digit_eq_of_ofDigit? {d : Nat} {m : Mode} (h : Mode.ofDigit? d = some m) : m.digit = d := by
  unfold Mode.ofDigit? at h
  split at h <;> cases h <;> rfl

/-- A mode an argument of the role may have (R71). -/
def Mode.fits (r : Role) (m : Mode) : Prop := r = .write → m.targets = true

/-- An accepted mode is the one its digit names, and it fits its role (R65, R71). -/
theorem decodeMode_ok {w k : Nat} {r : Role} {m : Mode} (h : decodeMode w k r = .ok m) :
    m.digit = digit w (k + 1) ∧ Mode.fits r m := by
  unfold decodeMode at h
  split at h
  case h_1 => cases h
  case h_2 m' hm =>
    split at h
    case isTrue => cases h
    case isFalse hbad =>
      cases h
      refine ⟨Mode.digit_eq_of_ofDigit? hm, ?_⟩
      rintro rfl
      cases m with
      | immediate => exact absurd ⟨rfl, rfl⟩ hbad
      | position | relative => rfl

/-- The modes of a list of roles are accepted one by one, in order. -/
theorem decodeModes_cons_ok {w k : Nat} {r : Role} {rs : List Role} {ms : List Mode}
    (h : decodeModes w k (r :: rs) = .ok ms) :
    ∃ m ms', ms = m :: ms' ∧ decodeMode w k r = .ok m ∧ decodeModes w (k + 1) rs = .ok ms' := by
  unfold decodeModes at h
  split at h
  case h_1 => cases h
  case h_2 m hm =>
    split at h
    case h_1 => cases h
    case h_2 ms' hms =>
      cases h
      exact ⟨m, ms', rfl, hm, hms⟩

/-- Accepted modes fit their roles, one mode for each (R71). -/
theorem decodeModes_fit {w k : Nat} {rs : List Role} {ms : List Mode} (h : decodeModes w k rs = .ok ms) :
    List.Forall₂ Mode.fits rs ms := by
  induction rs generalizing k ms with
  | nil =>
    cases h
    exact .nil
  | cons r rs ih =>
    obtain ⟨m, ms', rfl, hm, hms⟩ := decodeModes_cons_ok h
    exact .cons (decodeMode_ok hm).2 (ih hms)

/-- Accepted modes are the word's digits from digit `k + 1` upward, one digit for each role (R65). -/
theorem modeDigits_of_decodeModes {w k : Nat} {rs : List Role} {ms : List Mode} (h : decodeModes w k rs = .ok ms) :
    modeDigits ms = w / 10 ^ (k + 1) % 10 ^ rs.length := by
  induction rs generalizing k ms with
  | nil =>
    cases h
    simp [modeDigits, Nat.mod_one]
  | cons r rs ih =>
    obtain ⟨m, ms', rfl, hm, hms⟩ := decodeModes_cons_ok h
    calc modeDigits (m :: ms')
        = w / 10 ^ (k + 1) % 10 + 10 * (w / 10 ^ (k + 1) / 10 % 10 ^ rs.length) := by
          rw [modeDigits, ih hms, (decodeMode_ok hm).1, digit, Nat.div_div_eq_div_mul, ← pow_succ]
      _ = w / 10 ^ (k + 1) % 10 ^ (r :: rs).length := by
          rw [List.length_cons, pow_succ' 10 rs.length, Nat.mod_mul]

/-- What it takes for a word to be accepted (R68 to R72). -/
theorem decodeHead_ok {w : Int} {h : Head} (hd : decodeHead w = .ok h) :
    0 ≤ w ∧ w.toNat % 100 = h.op.code ∧ w.toNat / 10 ^ (h.op.arity + 2) = 0 ∧
      decodeModes w.toNat 1 h.op.roles = .ok h.modes := by
  unfold decodeHead at hd
  split at hd
  case isTrue => cases hd
  case isFalse hneg =>
    split at hd
    case h_1 => cases hd
    case h_2 o ho =>
      split at hd
      case isTrue => cases hd
      case isFalse habove =>
        split at hd
        case h_1 => cases hd
        case h_2 ms hms =>
          cases hd
          exact ⟨not_lt.1 hneg, by simpa [digits] using Op.code_eq_of_ofCode? ho, not_not.1 habove, hms⟩

/-- An accepted word has a fitting mode for each argument of its operation (R65, R71). -/
theorem decodeHead_modes_fit {w : Int} {h : Head} (hd : decodeHead w = .ok h) :
    List.Forall₂ Mode.fits h.op.roles h.modes := by
  obtain ⟨-, -, -, hms⟩ := decodeHead_ok hd
  exact decodeModes_fit hms

/-- Encoding what was read from an accepted word gives the word back (R74, R75). -/
theorem word_of_decodeHead {w : Int} {h : Head} (hd : decodeHead w = .ok h) : h.word = w := by
  obtain ⟨hw, hop, habove, hms⟩ := decodeHead_ok hd
  have hlow : w.toNat / 10 ^ 2 < 10 ^ h.op.arity := by
    rw [pow_add, mul_comm, ← Nat.div_div_eq_div_mul] at habove
    exact (Nat.div_eq_zero_iff_lt (by positivity)).1 habove
  have hmodes : modeDigits h.modes = w.toNat / 100 := by
    rw [modeDigits_of_decodeModes hms]
    exact Nat.mod_eq_of_lt hlow
  rw [Head.word, hmodes, ← hop]
  omega

end Sys2Proof
end

section
/-! ## The units of Machine/Units.lean against the rules of the instructions (00_scope.md R13, 30_encoding.md R83) -/

namespace Sys2Proof.Machine

/-- The addressing unit on a read argument is `readArg` on the operand word at its place. -/
theorem operand_read (s : State) (w : Int) (k : Nat) (m : Mode) :
    operand s.mem s.rb s.ip w k .read m =
      (readArg s w k ⟨m, s.load (s.ip.toNat + k)⟩).map Operand.val := by
  cases m with
  | immediate => rfl
  | position | relative =>
    simp only [operand, readArg, Arg.address?, checkAddress, State.load]
    split <;> rfl

/-- The addressing unit on a write argument is `writeArg` on the operand word at its place. -/
theorem operand_write (s : State) (w : Int) (k : Nat) (m : Mode) :
    operand s.mem s.rb s.ip w k .write m =
      (writeArg s w k ⟨m, s.load (s.ip.toNat + k)⟩).map Operand.addr := by
  cases m with
  | immediate => rfl
  | position | relative =>
    simp only [operand, writeArg, Arg.address?, checkAddress, State.load]
    split <;> rfl

/-- The operand list of a R,R instruction. -/
def operandsRR (v : Int × Int) : List Operand := [.val v.1, .val v.2]

/-- The operand list of a R,R,W instruction. -/
def operandsRRW (v : Int × Int × Nat) : List Operand := [.val v.1, .val v.2.1, .addr v.2.2]

theorem operands_R (s : State) (w : Int) (m : Mode) :
    operands s.mem s.rb s.ip w 1 [.read] [m] =
      (readArg s w 1 ⟨m, s.load (s.ip.toNat + 1)⟩).map fun v => [.val v] := by
  simp only [operands, operand_read]
  cases readArg s w 1 ⟨m, s.load (s.ip.toNat + 1)⟩ <;> rfl

theorem operands_W (s : State) (w : Int) (m : Mode) :
    operands s.mem s.rb s.ip w 1 [.write] [m] =
      (writeArg s w 1 ⟨m, s.load (s.ip.toNat + 1)⟩).map fun t => [.addr t] := by
  simp only [operands, operand_write]
  cases writeArg s w 1 ⟨m, s.load (s.ip.toNat + 1)⟩ <;> rfl

theorem operands_RR (s : State) (w : Int) (m1 m2 : Mode) :
    operands s.mem s.rb s.ip w 1 [.read, .read] [m1, m2] =
      (evalRR s w ⟨m1, s.load (s.ip.toNat + 1)⟩ ⟨m2, s.load (s.ip.toNat + 2)⟩).map operandsRR := by
  simp only [operands, operand_read, evalRR]
  cases readArg s w 1 ⟨m1, s.load (s.ip.toNat + 1)⟩ with
  | error f => rfl
  | ok v1 => cases readArg s w 2 ⟨m2, s.load (s.ip.toNat + 2)⟩ <;> rfl

/-- The decoder has seen to the target's mode, so `checkTarget`, which comes first in `evalRRW`, raises nothing. -/
theorem operands_RRW (s : State) (w : Int) (m1 m2 m3 : Mode) (h : m3.targets = true) :
    operands s.mem s.rb s.ip w 1 [.read, .read, .write] [m1, m2, m3] =
      (evalRRW s w ⟨m1, s.load (s.ip.toNat + 1)⟩ ⟨m2, s.load (s.ip.toNat + 2)⟩
        ⟨m3, s.load (s.ip.toNat + 3)⟩).map operandsRRW := by
  simp only [operands, operand_read, operand_write, evalRRW, evalRR, checkTarget, h, if_true]
  cases readArg s w 1 ⟨m1, s.load (s.ip.toNat + 1)⟩ with
  | error f => rfl
  | ok v1 =>
    cases readArg s w 2 ⟨m2, s.load (s.ip.toNat + 2)⟩ with
    | error f => rfl
    | ok v2 => cases writeArg s w 3 ⟨m3, s.load (s.ip.toNat + 3)⟩ <;> rfl

/-- The end of `unitStep`: the arbiter and the commit on the operands, or the fault the addressing unit raised. -/
def unitFinish (op : Op) (s : State) : Except FaultRecord (List Operand) → StepResult
  | .error f => .raise f s
  | .ok xs =>
    let next := arbiter op op.arity s.ip ((xs.getD 0 (.val 0)).value) ((xs.getD 1 (.val 0)).value) s.inq.isEmpty
    ⟨next.2, commit s next.1 (effects s op xs)⟩

/-- On an accepted word `unitStep` is the addressing unit followed by `unitFinish`. -/
theorem unitStep_of_decodeHead {s : State} {h : Head} (hip : 0 ≤ s.ip)
    (hd : decodeHead (s.load s.ip.toNat) = .ok h) :
    unitStep s = unitFinish h.op s (operands s.mem s.rb s.ip (s.load s.ip.toNat) 1 h.op.roles h.modes) := by
  unfold State.load at hd ⊢
  simp only [unitStep, fetch, if_neg (not_lt.2 hip), hd]
  cases operands s.mem s.rb s.ip (Memory.read s.mem s.ip.toNat) 1 h.op.roles h.modes <;> rfl

/-- Where fetch and decode fault, so do the fetch unit and the mode decoder. -/
theorem unitStep_of_fetchDecode_error {s : State} {f : FaultRecord} (h : fetchDecode s = .error f) :
    unitStep s = .raise f s := by
  unfold fetchDecode at h
  unfold unitStep
  cases hf : fetch s.mem s.ip with
  | error g =>
    simp only [hf] at h
    cases h
    rfl
  | ok w =>
    simp only [hf] at h
    cases hd : decodeHead w with
    | error e =>
      simp only [hd] at h ⊢
      cases h
      rfl
    | ok _ => simp [hd] at h

/-- ADD, MUL, LT and EQ: `binary` with the ALU's operation is what arbiter and commit make of the operands. -/
theorem unitFinish_RRW {op : Op} (hop : op.roles = [.read, .read, .write]) (w : Int) (a b d : Arg) (s : State) :
    unitFinish op s ((evalRRW s w a b d).map operandsRRW) = binary w a b d (alu op) s := by
  unfold binary
  cases evalRRW s w a b d with
  | error f => rfl
  | ok v =>
    cases op with
    | add | mul | lt | eq => rfl
    | inp | out | jt | jf | arb | hlt => simp [Op.roles] at hop

/-- On a R,R,W head whose target mode is not immediate, the units give `binary` with the ALU's operation. -/
theorem unitFinish_operands_RRW {op : Op} (hop : op.roles = [.read, .read, .write]) (s : State) (w : Int)
    (m1 m2 : Mode) {m3 : Mode} (h : m3.targets = true) :
    unitFinish op s (operands s.mem s.rb s.ip w 1 [.read, .read, .write] [m1, m2, m3]) =
      binary w ⟨m1, s.load (s.ip.toNat + 1)⟩ ⟨m2, s.load (s.ip.toNat + 2)⟩ ⟨m3, s.load (s.ip.toNat + 3)⟩
        (alu op) s := by
  rw [operands_RRW s w m1 m2 m3 h, unitFinish_RRW hop]

theorem alu_lt : alu .lt = lessWord := by
  funext v1 v2
  simp [alu, lessWord, truthWord]

theorem alu_eq : alu .eq = equalWord := by
  funext v1 v2
  simp [alu, equalWord, truthWord]

/-- JT and JF: where the arbiter's row is the jump on `taken` and nothing but ip is committed, the units give `jump`. -/
theorem unitFinish_RR {op : Op} {taken : Int → Bool} (s : State)
    (harb : ∀ v1 v2 q, arbiter op op.arity s.ip v1 v2 q = (if taken v1 then v2 else s.ip + 3, .continue))
    (heff : ∀ v, effects s op (operandsRR v) = {}) (w : Int) (a b : Arg) :
    unitFinish op s ((evalRR s w a b).map operandsRR) = jump w a b taken s := by
  unfold jump
  cases evalRR s w a b with
  | error f => rfl
  | ok v =>
    simp only [Except.map, unitFinish, harb, heff]
    cases h : taken v.1 <;> simp [operandsRR, Operand.value, h, StepResult.continue] <;> rfl

theorem unitFinish_jt (w : Int) (a b : Arg) (s : State) :
    unitFinish .jt s ((evalRR s w a b).map operandsRR) = jump w a b testsTrue s :=
  unitFinish_RR s (by simp [arbiter, testsTrue, Op.arity, Op.roles]) (fun _ => rfl) w a b

theorem unitFinish_jf (w : Int) (a b : Arg) (s : State) :
    unitFinish .jf s ((evalRR s w a b).map operandsRR) = jump w a b testsFalse s :=
  unitFinish_RR s (by simp [arbiter, testsFalse, Op.arity, Op.roles]) (fun _ => rfl) w a b

theorem unitFinish_inp (d : Arg) (s : State) :
    unitFinish .inp s ((writeArg s (Instr.word (.inp d)) 1 d).map fun t => [.addr t]) = resultInp d s := by
  unfold resultInp
  cases writeArg s (Instr.word (.inp d)) 1 d with
  | error f => rfl
  | ok t =>
    obtain ⟨mem, ip, rb, inq, lastOut, status⟩ := s
    cases inq <;> rfl

theorem unitFinish_out (a : Arg) (s : State) :
    unitFinish .out s ((readArg s (Instr.word (.out a)) 1 a).map fun v => [.val v]) = resultOut a s := by
  unfold resultOut
  cases readArg s (Instr.word (.out a)) 1 a <;> rfl

theorem unitFinish_arb (a : Arg) (s : State) :
    unitFinish .arb s ((readArg s (Instr.word (.arb a)) 1 a).map fun v => [.val v]) = resultArb a s := by
  unfold resultArb
  cases readArg s (Instr.word (.arb a)) 1 a <;> rfl

/-- The units on the operands of a head whose modes fit give the built instruction's own meaning. -/
theorem unitFinish_eq_result (s : State) {h : Head} (hms : List.Forall₂ Mode.fits h.op.roles h.modes) :
    unitFinish h.op s (operands s.mem s.rb s.ip h.word 1 h.op.roles h.modes) =
      result (h.build fun k => s.load (s.ip.toNat + k)) s := by
  obtain ⟨op, ms⟩ := h
  cases op with
  | add | mul =>
    obtain _ | ⟨-, _ | ⟨-, _ | ⟨h3, _ | _⟩⟩⟩ := hms
    exact unitFinish_operands_RRW rfl s _ _ _ (h3 rfl)
  | lt =>
    obtain _ | ⟨-, _ | ⟨-, _ | ⟨h3, _ | _⟩⟩⟩ := hms
    exact (unitFinish_operands_RRW rfl s _ _ _ (h3 rfl)).trans (congrArg (binary _ _ _ _ · s) alu_lt)
  | eq =>
    obtain _ | ⟨-, _ | ⟨-, _ | ⟨h3, _ | _⟩⟩⟩ := hms
    exact (unitFinish_operands_RRW rfl s _ _ _ (h3 rfl)).trans (congrArg (binary _ _ _ _ · s) alu_eq)
  | jt =>
    obtain _ | ⟨-, _ | ⟨-, _ | _⟩⟩ := hms
    exact (congrArg _ (operands_RR s _ _ _)).trans (unitFinish_jt ..)
  | jf =>
    obtain _ | ⟨-, _ | ⟨-, _ | _⟩⟩ := hms
    exact (congrArg _ (operands_RR s _ _ _)).trans (unitFinish_jf ..)
  | inp =>
    obtain _ | ⟨-, _ | _⟩ := hms
    exact (congrArg _ (operands_W s _ _)).trans (unitFinish_inp ..)
  | out =>
    obtain _ | ⟨-, _ | _⟩ := hms
    exact (congrArg _ (operands_R s _ _)).trans (unitFinish_out ..)
  | arb =>
    obtain _ | ⟨-, _ | _⟩ := hms
    exact (congrArg _ (operands_R s _ _)).trans (unitFinish_arb ..)
  | hlt =>
    cases hms
    rfl

/-- Settles O15: a fetch or decode fault is the same in both, and on an accepted word, whose head makes the word again,
the units give the built instruction's meaning. -/
theorem unitsComposeToTheStep : Obligations.UnitsComposeToTheStep := by
  unfold Obligations.UnitsComposeToTheStep
  intro s
  unfold cycle
  rcases fetchDecode_cases s with ⟨-, hf⟩ | ⟨-, e, -, hf⟩ | ⟨hip, h, hd, hf⟩
  · rw [unitStep_of_fetchDecode_error hf, hf]
  · rw [unitStep_of_fetchDecode_error hf, hf]
  · rw [hf, unitStep_of_decodeHead hip hd]
    nth_rewrite 1 [← word_of_decodeHead hd]
    exact unitFinish_eq_result s (decodeHead_modes_fit hd)

end Sys2Proof.Machine
end

section
/-! ## Faults: what a step that leaves a faulted state did -/

namespace Sys2Proof.Machine

/-- A step answers exactly the state of the cycle of R83, from Ready alone. -/
theorem step_next_iff {s t : State} : step s = .next t ↔ s.status = .ready ∧ (cycle s).state = t := by
  unfold step cycle
  cases s.status with
  | halted => simp
  | faulted f => simp
  | ready =>
    cases fetchDecode s with
    | error f => simp [StepResult.outcome]
    | ok i => simp [exec_next_iff]

/-- An instruction either raises a fault, and does nothing else, or ends without one; then it leaves the status, or is
HLT and sets Halted (R81, R82). -/
theorem result_raises_or_completes (i : Instr) (s : State) :
    (∃ f, result i s = .raise f s) ∨
    ((∀ f, (result i s).event ≠ .fault f) ∧
      ((result i s).state.status = s.status ∨ i = .hlt ∧ (result i s).state.status = .halted)) := by
  cases i with
  | add a b d | mul a b d | lt a b d | eq a b d =>
    obtain ⟨f, -, h⟩ | ⟨v1, v2, t, -, h⟩ := binary_cases _ a b d _ s
    · exact .inl ⟨f, h⟩
    · exact .inr (by simp [result, resultAdd, resultMul, resultLt, resultEq, h, StepResult.continue])
  | jt a b | jf a b =>
    obtain ⟨f, -, h⟩ | ⟨v1, v2, -, h⟩ := jump_cases _ a b _ s
    · exact .inl ⟨f, h⟩
    · refine .inr ?_
      simp only [result, resultJt, resultJf, h, StepResult.continue]
      split <;> simp
  | inp d =>
    simp only [result, resultInp]
    cases writeArg s (Instr.word (.inp d)) 1 d with
    | error f => exact .inl ⟨f, rfl⟩
    | ok t => cases s.inq <;> exact .inr (by simp [StepResult.continue])
  | out a =>
    simp only [result, resultOut]
    cases readArg s (Instr.word (.out a)) 1 a with
    | error f => exact .inl ⟨f, rfl⟩
    | ok v => exact .inr (by simp)
  | arb a =>
    simp only [result, resultArb]
    cases readArg s (Instr.word (.arb a)) 1 a with
    | error f => exact .inl ⟨f, rfl⟩
    | ok v => exact .inr (by simp [StepResult.continue])
  | hlt => exact .inr (by simp [result, resultHlt])

/-- A cycle from Ready that leaves a faulted state raised the fault recorded there (R82, R150). -/
theorem cycle_eq_raise_of_faulted {s : State} {f : FaultRecord} (hs : s.status = .ready)
    (hf : (cycle s).state.status = .faulted f) : cycle s = .raise f s := by
  have raises (g : FaultRecord) (hg : cycle s = .raise g s) : cycle s = .raise f s := by
    have hgf : g = f := by simpa [hg, StepResult.raise] using hf
    exact hgf ▸ hg
  cases hd : fetchDecode s with
  | error g => exact raises g (by simp [cycle, hd])
  | ok i =>
    have hc : cycle s = result i s := by simp [cycle, hd]
    obtain ⟨g, hg⟩ | ⟨-, hst | ⟨-, hst⟩⟩ := result_raises_or_completes i s
    · exact raises g (hc.trans hg)
    · simp [hc, hst, hs] at hf
    · simp [hc, hst] at hf

/-- A fault changes nothing but the status (R82), so putting the status back undoes it. -/
theorem State.raise_setStatus {s : State} {st : Status} (f : FaultRecord) (hs : s.status = st) :
    (s.raise f).setStatus st = s := by
  subst hs
  rfl

/-- Settles O51, by the last event on the way to the state: construction and an input leave status Ready, and a step
that left the record raised it from Ready, which is all it did. -/
theorem recordedFaultIsTheInstructions : Obligations.RecordedFaultIsTheInstructions := by
  unfold Obligations.RecordedFaultIsTheInstructions
  intro image s f hreach hf
  cases hreach with
  | construct => cases hf
  | supply x _ hready =>
    exact absurd (hready.symm.trans hf) Status.noConfusion
  | step _ hstep =>
    obtain ⟨hready, rfl⟩ := step_next_iff.1 hstep
    have hc := cycle_eq_raise_of_faulted hready hf
    rw [hc]
    exact (congrArg cycle (State.raise_setStatus f hready)).trans hc

end Sys2Proof.Machine
end

section
/-! ## The run loop is deterministic (00_scope.md R19, 60_exceptions.md R166, R170) -/

namespace Sys2Proof.Machine

theorem run_succ_of_ends {s : State} {r : ResumeResult} (h : (cycle s).event.ends? = some r) (n : Nat) :
    run (n + 1) s = some (r, (cycle s).state) := by
  simp [run, h]

theorem run_succ_of_continues {s : State} (h : (cycle s).event.ends? = none) (n : Nat) :
    run (n + 1) s = run n (cycle s).state := by
  simp [run, h]

/-- A run that has returned under some fuel returns the same under any more. -/
theorem run_mono {n m : Nat} {s : State} {x : ResumeResult × State} (hnm : n ≤ m) (h : run n s = some x) :
    run m s = some x := by
  induction n generalizing m s with
  | zero => cases h
  | succ n ih =>
    obtain ⟨m, rfl⟩ := Nat.exists_eq_add_one_of_ne_zero (Nat.ne_zero_of_lt hnm)
    cases he : (cycle s).event.ends? with
    | some r => rw [run_succ_of_ends he] at h ⊢; exact h
    | none =>
      rw [run_succ_of_continues he] at h ⊢
      exact ih (Nat.le_of_succ_le_succ hnm) h

/-- The loop without fuel ends in at most one way: the event decides between stopping and going on. -/
theorem Runs.unique {s t u : State} {r q : ResumeResult} (h : Runs s r t) (h' : Runs s q u) : r = q ∧ t = u := by
  induction h with
  | stops he =>
    cases h' with
    | stops he' => exact ⟨Option.some.inj (he.symm.trans he'), rfl⟩
    | steps hc' _ => rw [hc'] at he; cases he
  | steps hc _ ih =>
    cases h' with
    | stops he' => rw [hc] at he'; cases he'
    | steps _ hrest => exact ih hrest

/-- Settles O55, by induction on the smaller fuel and on the derivation of the run. -/
theorem moreFuelGivesTheSameResult : Obligations.MoreFuelGivesTheSameResult := by
  unfold Obligations.MoreFuelGivesTheSameResult
  exact ⟨fun _ _ _ _ => run_mono, fun _ _ _ _ _ => Runs.unique⟩

end Sys2Proof.Machine
end

section
/-! ## What memory reads (10_state.md R20, 20_memory.md R41 to R43, 70_reset_and_hazards.md R180) -/

namespace Sys2Proof.Machine

@[simp] theorem Memory.read_nil (a : Nat) : Memory.read [] a = Config.unwritten := rfl

theorem Memory.read_listCons (c : Nat × Int) (m : Memory) (a : Nat) :
    Memory.read (c :: m) a = if a = c.1 then c.2 else Memory.read m a := rfl

theorem Memory.write_listCons (c : Nat × Int) (m : Memory) (a : Nat) (v : Int) :
    Memory.write (c :: m) a v =
      if a < c.1 then Memory.cons a v (c :: m)
      else if a = c.1 then Memory.cons a v m
      else c :: Memory.write m a v := rfl

/-- An address that no cell lists reads as unwritten (R41). -/
theorem Memory.read_of_unlisted {m : Memory} {a : Nat} (h : ∀ c ∈ m, a ≠ c.1) :
    Memory.read m a = Config.unwritten := by
  induction m with
  | nil => rfl
  | cons c m ih =>
    rw [List.forall_mem_cons] at h
    rw [Memory.read_listCons, if_neg h.1, ih h.2]

/-- The first cell of a memory in canonical form reads as written. -/
theorem Memory.read_head_ne {c : Nat × Int} {m : Memory} (h : Memory.wf (c :: m)) :
    Memory.read (c :: m) c.1 ≠ Config.unwritten := by
  obtain ⟨-, hne, -⟩ := Memory.wf_cons_iff.1 h
  rwa [Memory.read_listCons, if_pos rfl]

/-- The first cell of a memory in canonical form is listed in it alone. -/
theorem Memory.read_tail_head {c : Nat × Int} {m : Memory} (h : Memory.wf (c :: m)) :
    Memory.read m c.1 = Config.unwritten :=
  Memory.read_of_unlisted fun d hd => ((Memory.wf_cons_iff.1 h).1 d hd).ne

/-- In canonical form nothing below the first cell reads as written. -/
theorem Memory.head_le_of_read_ne {c : Nat × Int} {m : Memory} {a : Nat} (h : Memory.wf (c :: m))
    (ha : Memory.read (c :: m) a ≠ Config.unwritten) : c.1 ≤ a := by
  obtain ⟨hlt, -, -⟩ := Memory.wf_cons_iff.1 h
  by_contra! hac
  refine ha (Memory.read_of_unlisted (List.forall_mem_cons.2 ⟨hac.ne, fun d hd => ?_⟩))
  exact (hac.trans (hlt d hd)).ne

/-- Each first cell is at the least address that reads as written, so the two first cells are the same one. -/
theorem Memory.ext_of_read {m n : Memory} (hm : Memory.wf m) (hn : Memory.wf n)
    (h : ∀ a, Memory.read m a = Memory.read n a) : m = n := by
  induction m generalizing n with
  | nil =>
    cases n with
    | nil => rfl
    | cons d n => exact absurd (h d.1).symm (Memory.read_head_ne hn)
  | cons c m ih =>
    cases n with
    | nil => exact absurd (h c.1) (Memory.read_head_ne hm)
    | cons d n =>
      have haddr : c.1 = d.1 := le_antisymm
        (Memory.head_le_of_read_ne hm (h d.1 ▸ Memory.read_head_ne hn))
        (Memory.head_le_of_read_ne hn (h c.1 ▸ Memory.read_head_ne hm))
      have hword : c.2 = d.2 := by simpa [Memory.read_listCons, haddr] using h d.1
      have htail (a : Nat) : Memory.read m a = Memory.read n a := by
        by_cases ha : a = d.1
        · rw [ha, Memory.read_tail_head hn, ← haddr, Memory.read_tail_head hm]
        · simpa [Memory.read_listCons, haddr, ha] using h a
      obtain ⟨-, -, hm'⟩ := Memory.wf_cons_iff.1 hm
      obtain ⟨-, -, hn'⟩ := Memory.wf_cons_iff.1 hn
      rw [Prod.ext haddr hword, ih hm' hn' htail]

/-- Settles O35, by induction on the two lists at once. -/
theorem memoryIsDeterminedByItsReads : Obligations.MemoryIsDeterminedByItsReads := by
  unfold Obligations.MemoryIsDeterminedByItsReads
  exact fun _ _ => Memory.ext_of_read

theorem Memory.read_cons {a : Nat} {m : Memory} (h : ∀ c ∈ m, a < c.1) (v : Int) (b : Nat) :
    Memory.read (Memory.cons a v m) b = if b = a then v else Memory.read m b := by
  unfold Memory.cons
  by_cases hv : v = Config.unwritten
  · have ha : Memory.read m a = v := hv ▸ Memory.read_of_unlisted fun c hc => (h c hc).ne
    rw [if_pos hv, ← ha]
    split_ifs with hb
    · rw [hb]
    · rfl
  · rw [if_neg hv, Memory.read_listCons]

/-- A write changes the one cell it names (R43). -/
theorem Memory.read_write {m : Memory} (h : Memory.wf m) (a : Nat) (v : Int) (b : Nat) :
    Memory.read (Memory.write m a v) b = if b = a then v else Memory.read m b := by
  induction m with
  | nil => exact Memory.read_cons (by simp) v b
  | cons d m ih =>
    obtain ⟨hlt, -, hm⟩ := Memory.wf_cons_iff.1 h
    rw [Memory.write_listCons]
    obtain hbelow | rfl | habove := lt_trichotomy a d.1
    · rw [if_pos hbelow,
        Memory.read_cons (List.forall_mem_cons.2 ⟨hbelow, fun c hc => hbelow.trans (hlt c hc)⟩)]
    · rw [if_neg (lt_irrefl _), if_pos rfl, Memory.read_cons hlt, Memory.read_listCons]
      split_ifs <;> rfl
    · rw [if_neg habove.not_gt, if_neg habove.ne', Memory.read_listCons, Memory.read_listCons, ih hm]
      by_cases hb : b = d.1
      · rw [if_pos hb, if_pos hb, if_neg (hb ▸ habove.ne)]
      · rw [if_neg hb, if_neg hb]

/-- Words written from `a` on read back in order, and every other cell reads as before. -/
theorem Memory.read_writeWords {m : Memory} (h : Memory.wf m) (a : Nat) (ws : List Int) (b : Nat) :
    Memory.read (Memory.writeWords m a ws) b =
      if b < a then Memory.read m b else ws.getD (b - a) (Memory.read m b) := by
  induction ws generalizing m a with
  | nil => simp [Memory.writeWords]
  | cons w ws ih =>
    rw [Memory.writeWords, ih (Memory.write_wf h a w), Memory.read_write h]
    obtain hlt | rfl | hgt := lt_trichotomy b a
    · rw [if_pos (by omega), if_neg hlt.ne, if_pos hlt]
    · simp
    · obtain ⟨k, rfl⟩ := Nat.exists_eq_add_of_lt hgt
      rw [if_neg (by omega), if_neg hgt.ne', if_neg (by omega), Nat.add_sub_add_right]
      simp [Nat.add_assoc]

theorem State.construct_load (image : List Int) (a : Nat) : (State.construct image).load a = image.getD a 0 :=
  Memory.read_writeWords Memory.wf_nil 0 image a

/-- Settles O36: memory is the image's words written from address 0 on, and the rest is reset's. -/
theorem constructionGivesTheResetValues : Obligations.ConstructionGivesTheResetValues := by
  unfold Obligations.ConstructionGivesTheResetValues
  exact fun image => ⟨State.construct_load image, rfl, rfl, rfl, rfl, rfl⟩

/-- Settles O47: the empty memory is in canonical form, and Ready is explained of itself. -/
theorem invariantHoldsAtReset : Obligations.InvariantHoldsAtReset := by
  unfold Obligations.InvariantHoldsAtReset
  exact ⟨State.reset_mem_wf, trivial⟩

end Sys2Proof.Machine
end

section
/-! ## What an instruction that raises no fault does

`Executes` says once, for each kind of instruction, the event and the state it ends with (30_encoding.md R77, R80,
R81). What a step does to the port registers and the status, and how a run ends, is read off its cases. -/

namespace Sys2Proof.Machine

/-- Run in `s`, `i` raises no fault and has the result given. The word a R,R,W instruction stores and the ip a jump sets
are left open: `binary_cases` and `jump_cases` have them. -/
inductive Executes (s : State) : Instr → StepResult → Prop where
  | stores {i : Instr} {d : Arg} {t : Nat} (v : Int) : i.target? = some (3, d) → Arg.targets s d t →
      Executes s i (.continue ((s.store t v).advance 4))
  | jumps {i : Instr} (target : Int) : i.op = .jt ∨ i.op = .jf → Executes s i (.continue (s.setIp target))
  | waits {d : Arg} {t : Nat} : writeArg s (Instr.word (.inp d)) 1 d = .ok t → s.inq = [] →
      Executes s (.inp d) ⟨.needsInput, s⟩
  | takes {d : Arg} {t : Nat} {x : Int} {rest : List Int} : Arg.targets s d t → s.inq = x :: rest →
      Executes s (.inp d) (.continue (((s.setInq rest).store t x).advance 2))
  | emits {a : Arg} : Arg.readable s a →
      Executes s (.out a) ⟨.output (Arg.value s a), (s.setLastOut (Arg.value s a)).advance 2⟩
  | adjusts {a : Arg} : Arg.readable s a →
      Executes s (.arb a) (.continue ((s.setRb (s.rb + Arg.value s a)).advance 2))
  | halts : Executes s .hlt ⟨.halted, s.setStatus .halted⟩

/-- Arguments of a R,R,W instruction that can be evaluated give the cell the write argument names. -/
theorem evalRRW_ok_targets {s : State} {w : Int} {a b d : Arg} {v1 v2 : Int} {t : Nat}
    (h : evalRRW s w a b d = .ok (v1, v2, t)) : Arg.targets s d t := by
  unfold evalRRW at h
  split at h
  case h_1 => cases h
  case h_2 =>
    split at h
    case h_1 => cases h
    case h_2 =>
      obtain ⟨-, hw⟩ | ⟨x, -, -, hw⟩ | ⟨c, hc, hw⟩ := writeArg_cases s w 3 d
      · simp [hw] at h
      · simp [hw] at h
      · simp only [hw, Except.ok.injEq, Prod.mk.injEq] at h
        obtain ⟨-, -, rfl⟩ := h
        exact hc

theorem result_raises_or_executes (i : Instr) (s : State) :
    (∃ f, result i s = .raise f s) ∨ Executes s i (result i s) := by
  cases i with
  | add a b d | mul a b d | lt a b d | eq a b d =>
    obtain ⟨f, -, h⟩ | ⟨v1, v2, t, hv, h⟩ := binary_cases _ a b d _ s
    · exact .inl ⟨f, h⟩
    · simp only [result, resultAdd, resultMul, resultLt, resultEq, h]
      exact .inr (.stores _ rfl (evalRRW_ok_targets hv))
  | jt a b | jf a b =>
    obtain ⟨f, -, h⟩ | ⟨v1, v2, -, h⟩ := jump_cases _ a b _ s
    · exact .inl ⟨f, h⟩
    · simp only [result, resultJt, resultJf, h]
      refine .inr ?_
      split
      · exact .jumps v2 (by simp [Instr.op])
      · exact .jumps (s.ip + 3) (by simp [Instr.op])
  | inp d =>
    obtain ⟨-, h⟩ | ⟨x, -, -, h⟩ | ⟨t, ht, h⟩ := writeArg_cases s (Instr.word (.inp d)) 1 d
    · exact .inl ⟨_, by rw [result, resultInp, h]⟩
    · exact .inl ⟨_, by rw [result, resultInp, h]⟩
    · simp only [result, resultInp, h]
      cases hq : s.inq with
      | nil => exact .inr (.waits h hq)
      | cons x rest => exact .inr (.takes ht hq)
  | out a =>
    obtain ⟨x, -, -, h⟩ | ⟨ha, h⟩ := readArg_cases s (Instr.word (.out a)) 1 a
    · exact .inl ⟨_, by rw [result, resultOut, h]⟩
    · simp only [result, resultOut, h]
      exact .inr (.emits ha)
  | arb a =>
    obtain ⟨x, -, -, h⟩ | ⟨ha, h⟩ := readArg_cases s (Instr.word (.arb a)) 1 a
    · exact .inl ⟨_, by rw [result, resultArb, h]⟩
    · simp only [result, resultArb, h]
      exact .inr (.adjusts ha)
  | hlt => exact .inr .halts

/-- A cycle raises a fault, or executes the instruction at ip (R77, R82). -/
theorem cycle_raises_or_executes (s : State) :
    (∃ f, cycle s = .raise f s) ∨ ∃ i, fetchDecode s = .ok i ∧ Executes s i (cycle s) := by
  unfold cycle
  cases fetchDecode s with
  | error f => exact .inl ⟨f, rfl⟩
  | ok i => exact (result_raises_or_executes i s).imp_right fun h => ⟨i, rfl, h⟩

/-- Only IN takes from inq, and it takes the head (R26). -/
theorem Executes.inq_cases {s : State} {i : Instr} {r : StepResult} (h : Executes s i r) :
    r.state.inq = s.inq ∨ ∃ x d, s.inq = x :: r.state.inq ∧ i = .inp d := by
  cases h with
  | takes _ hq => exact .inr ⟨_, _, hq, rfl⟩
  | stores | jumps | waits | emits | adjusts | halts => exact .inl rfl

/-- Only OUT writes lastOut, and it writes the value emitted (R27). -/
theorem Executes.lastOut_cases {s : State} {i : Instr} {r : StepResult} (h : Executes s i r) :
    r.state.lastOut = s.lastOut ∨
      ∃ a, i = .out a ∧ Arg.readable s a ∧ r.state.lastOut = some (Arg.value s a) := by
  cases h with
  | emits ha => exact .inr ⟨_, rfl, ha, rfl⟩
  | stores | jumps | waits | takes | adjusts | halts => exact .inl rfl

/-- Only HLT sets the status, and it sets Halted (R24, R140). -/
theorem Executes.status_cases {s : State} {i : Instr} {r : StepResult} (h : Executes s i r) :
    r.state.status = s.status ∨ i = .hlt ∧ r.state.status = .halted := by
  cases h with
  | halts => exact .inr ⟨rfl, rfl⟩
  | stores | jumps | waits | takes | emits | adjusts => exact .inl rfl

/-- Settles O42: a fault changes neither register, and of the instructions IN and OUT alone do. -/
theorem onlyInAndOutTouchThePortRegisters : Obligations.OnlyInAndOutTouchThePortRegisters := by
  unfold Obligations.OnlyInAndOutTouchThePortRegisters
  intro s t hstep
  obtain ⟨-, rfl⟩ := step_next_iff.1 hstep
  obtain ⟨f, hraise⟩ | ⟨i, hi, hexec⟩ := cycle_raises_or_executes s
  · rw [hraise]
    exact ⟨.inl rfl, .inl rfl⟩
  · simp only [hi, Except.ok.injEq]
    exact ⟨hexec.inq_cases, hexec.lastOut_cases⟩

end Sys2Proof.Machine
end

section
/-! ## Stopped states and the halted flag (10_state.md R24, R25, 60_exceptions.md R154, R167) -/

namespace Sys2Proof.Machine

theorem step_of_halted {s : State} (h : s.status = .halted) : step s = .refused .resumeHalted := by
  simp [step, h]

theorem step_of_faulted {s : State} {f : FaultRecord} (h : s.status = .faulted f) : step s = .fault (.faulted f) := by
  simp [step, h]

theorem resume_of_halted {s : State} (h : s.status = .halted) (n : Nat) (inp : Option Int) :
    resume n s inp = some (.resumeHalted, s) := by
  simp [resume, h]

theorem State.halted_iff {s : State} : s.halted = true ↔ s.status = .halted := by
  simp [State.halted]

/-- Settles O14, one clause for each status a step can find. -/
theorem stoppedInstanceNeverSteps : Obligations.StoppedInstanceNeverSteps := by
  unfold Obligations.StoppedInstanceNeverSteps
  exact fun s => ⟨step_of_halted, fun _ => step_of_faulted, fun _ h => (step_next_iff.1 h).1⟩

/-- A cycle from Ready that leaves the status Halted executed HLT (R24, R140). -/
theorem fetchDecode_of_cycle_halts {s : State} (hs : s.status = .ready) (h : (cycle s).state.status = .halted) :
    fetchDecode s = .ok .hlt := by
  obtain ⟨f, hraise⟩ | ⟨i, hi, hexec⟩ := cycle_raises_or_executes s
  · simp [hraise, StepResult.raise] at h
  · obtain hkeep | ⟨rfl, -⟩ := hexec.status_cases
    · simp [hkeep, hs] at h
    · exact hi

/-- Settles O45: a step runs from Ready and HLT alone leaves Halted; in Halted the step is refused and a call
returns the state it was given. -/
theorem haltedIsSetByHaltAloneAndNeverCleared : Obligations.HaltedIsSetByHaltAloneAndNeverCleared := by
  unfold Obligations.HaltedIsSetByHaltAloneAndNeverCleared
  refine ⟨fun s t hstep ht => ?_, fun s hs => ⟨fun t hstep => ?_, fun n inp r t hcall => ?_⟩,
    fun s => State.halted_iff⟩
  · obtain ⟨hready, rfl⟩ := step_next_iff.1 hstep
    exact ⟨by simp [State.halted, hready], fetchDecode_of_cycle_halts hready (State.halted_iff.1 ht)⟩
  · rw [step_of_halted (State.halted_iff.1 hs)] at hstep
    cases hstep
  · rw [resume_of_halted (State.halted_iff.1 hs)] at hcall
    cases hcall
    exact hs

end Sys2Proof.Machine
end

section
/-! ## How a run ends (10_state.md R33, 60_exceptions.md R166, R173) -/

namespace Sys2Proof.Machine

/-- The state a call that ran and returned the result leaves (R173). -/
def ResumeResult.leaves (t : State) : ResumeResult → Prop
  | .output v => t.status = .ready ∧ t.lastOut = some v
  | .needsInput => State.waiting t
  | .halted => t.status = .halted
  | .fault f => t.status = .faulted f
  | .resumeHalted => False

/-- A cycle that goes on leaves status Ready. -/
theorem cycle_ready_of_continues {s : State} (hs : s.status = .ready) (he : (cycle s).event.ends? = none) :
    (cycle s).state.status = .ready := by
  obtain ⟨f, hraise⟩ | ⟨i, -, hexec⟩ := cycle_raises_or_executes s
  · simp [hraise, StepResult.raise, Event.ends?] at he
  · generalize cycle s = r at hexec he ⊢
    cases hexec with
    | stores | jumps | takes | adjusts => exact hs
    | waits | emits | halts => cases he

/-- A cycle that ends a call leaves what its result says. -/
theorem cycle_leaves_of_ends {s : State} {q : ResumeResult} (hs : s.status = .ready)
    (he : (cycle s).event.ends? = some q) : q.leaves (cycle s).state := by
  obtain ⟨f, hraise⟩ | ⟨i, hi, hexec⟩ := cycle_raises_or_executes s
  · rw [hraise] at he ⊢
    cases he
    rfl
  · generalize cycle s = r at hexec he ⊢
    cases hexec with
    | stores | jumps | takes | adjusts => cases he
    | waits hw hq =>
      cases he
      exact ⟨hs, hq, _, _, hi, hw⟩
    | emits =>
      cases he
      exact ⟨hs, rfl⟩
    | halts =>
      cases he
      rfl

theorem run_leaves {n : Nat} {s t : State} {r : ResumeResult} (hs : s.status = .ready)
    (h : run n s = some (r, t)) : r.leaves t := by
  induction n generalizing s with
  | zero => cases h
  | succ n ih =>
    cases he : (cycle s).event.ends? with
    | some q =>
      rw [run_succ_of_ends he] at h
      cases h
      exact cycle_leaves_of_ends hs he
    | none =>
      rw [run_succ_of_continues he] at h
      exact ih (cycle_ready_of_continues hs he) h

/-- Settles O56, by induction on the fuel: every cycle but the last leaves status Ready. -/
theorem runEndsAsTheStatusSays : Obligations.RunEndsAsTheStatusSays := by
  unfold Obligations.RunEndsAsTheStatusSays
  exact fun _ _ _ _ => run_leaves

end Sys2Proof.Machine
end

section
/-! ## The addressing unit, by the address an argument computes (20_memory.md R44, R46 to R51) -/

namespace Sys2Proof.Machine

/-- A read argument that computes an address is checked and dereferenced (R46, R48). -/
theorem readArg_of_address {s : State} {a : Arg} {x : Int} (h : Arg.address? s.rb a = some x) (w : Int) (k : Nat) :
    readArg s w k a = if x < 0 then .error (addressFault s.ip w k x) else .ok (s.load x.toNat) := by
  simp only [readArg, h, checkAddress]
  split_ifs <;> rfl

/-- A write argument that computes an address is checked and not dereferenced (R49). -/
theorem writeArg_of_address {s : State} {a : Arg} {x : Int} (h : Arg.address? s.rb a = some x) (w : Int) (k : Nat) :
    writeArg s w k a = if x < 0 then .error (addressFault s.ip w k x) else .ok x.toNat := by
  simp only [writeArg, h, checkAddress]

theorem readArg_of_negative {s : State} {a : Arg} {x : Int} (h : Arg.address? s.rb a = some x) (hx : x < 0)
    (w : Int) (k : Nat) : readArg s w k a = .error (addressFault s.ip w k x) := by
  rw [readArg_of_address h, if_pos hx]

theorem writeArg_of_negative {s : State} {a : Arg} {x : Int} (h : Arg.address? s.rb a = some x) (hx : x < 0)
    (w : Int) (k : Nat) : writeArg s w k a = .error (addressFault s.ip w k x) := by
  rw [writeArg_of_address h, if_pos hx]

theorem readArg_of_readable {s : State} {a : Arg} (h : Arg.readable s a) (w : Int) (k : Nat) :
    readArg s w k a = .ok (Arg.value s a) := by
  obtain ⟨x, hx, hneg, -⟩ | ⟨-, hok⟩ := readArg_cases s w k a
  · exact absurd (h x hx) (not_le.2 hneg)
  · exact hok

/-- An immediate write argument computes no address and is refused (R50, R71). -/
theorem writeArg_of_immediate {a : Arg} (h : a.mode = .immediate) (s : State) (w : Int) (k : Nat) :
    writeArg s w k a = .error (targetModeFault s.ip w k) := by
  simp [writeArg, Arg.address?, h]

/-- A write argument names at most one cell (R45). -/
theorem Arg.targets_unique {s : State} {d : Arg} {c c' : Nat} (h : Arg.targets s d c) (h' : Arg.targets s d c') :
    c = c' :=
  Int.ofNat.inj (Option.some.inj (h.symm.trans h'))

/-- Settles O16: the position and the relative mode by the address they compute, the immediate mode by its operand. -/
theorem addressingUnitFollowsTheModes : Obligations.AddressingUnitFollowsTheModes := by
  unfold Obligations.AddressingUnitFollowsTheModes
  exact fun s w raw k => ⟨readArg_of_address rfl w k, rfl, readArg_of_address rfl w k, writeArg_of_address rfl w k,
    writeArg_of_address rfl w k⟩

/-- With rb = 0 a relative argument computes its operand word itself, as a position argument does (R51). -/
theorem Arg.address?_relative_of_base_zero {s : State} (h : s.rb = 0) (raw : Int) :
    Arg.address? s.rb ⟨.relative, raw⟩ = some raw := by
  simp [Arg.address?, h]

/-- Settles O17: the two arguments compute the same address, and the sign of it decides. -/
theorem relativeEqualsPositionAtBaseZero : Obligations.RelativeEqualsPositionAtBaseZero := by
  unfold Obligations.RelativeEqualsPositionAtBaseZero
  intro s w raw k hrb
  have hrel := Arg.address?_relative_of_base_zero hrb raw
  have hpos : Arg.address? s.rb ⟨.position, raw⟩ = some raw := rfl
  refine ⟨?_, ?_, fun hraw => ⟨?_, ?_⟩, fun hraw => ⟨?_, ?_⟩⟩
  · rw [readArg_of_address hrel, readArg_of_address hpos]
  · rw [writeArg_of_address hrel, writeArg_of_address hpos]
  · rw [readArg_of_address hrel, if_neg (not_lt.2 hraw)]
  · rw [writeArg_of_address hrel, if_neg (not_lt.2 hraw)]
  · exact readArg_of_negative hrel hraw w k
  · exact writeArg_of_negative hrel hraw w k

end Sys2Proof.Machine
end

section
/-! ## The first negative address stops an instruction (20_memory.md R44, 30_encoding.md R79) -/

namespace Sys2Proof.Machine

/-- The first negative address is the first argument's, or that one is readable and it is among the arguments after it. -/
theorem firstNegative_cons {s : State} {k : Nat} {a : Arg} {as : List Arg} {p : Nat × Int}
    (h : firstNegative s.rb k (a :: as) = some p) :
    (∃ x, Arg.address? s.rb a = some x ∧ x < 0 ∧ p = (k, x)) ∨
    (Arg.readable s a ∧ firstNegative s.rb (k + 1) as = some p) := by
  unfold firstNegative at h
  cases haddr : Arg.address? s.rb a with
  | none =>
    simp only [haddr] at h
    exact .inr ⟨fun x hx => (by simp [haddr] at hx), h⟩
  | some x =>
    simp only [haddr] at h
    split at h
    case isTrue hx =>
      cases h
      exact .inl ⟨x, rfl, hx, rfl⟩
    case isFalse hx =>
      refine .inr ⟨fun y hy => ?_, h⟩
      cases haddr.symm.trans hy
      exact not_lt.1 hx

theorem firstNegative_singleton {s : State} {a : Arg} {j k : Nat} {x : Int}
    (h : firstNegative s.rb j [a] = some (k, x)) : j = k ∧ Arg.address? s.rb a = some x ∧ x < 0 := by
  obtain ⟨y, haddr, hneg, hp⟩ | ⟨-, hnil⟩ := firstNegative_cons h
  · cases hp
    exact ⟨rfl, haddr, hneg⟩
  · cases hnil

theorem readArg_of_firstNegative {s : State} {a : Arg} {j k : Nat} {x : Int}
    (h : firstNegative s.rb j [a] = some (k, x)) (w : Int) : readArg s w j a = .error (addressFault s.ip w k x) := by
  obtain ⟨rfl, haddr, hneg⟩ := firstNegative_singleton h
  exact readArg_of_negative haddr hneg w j

theorem writeArg_of_firstNegative {s : State} {d : Arg} {j k : Nat} {x : Int}
    (h : firstNegative s.rb j [d] = some (k, x)) (w : Int) : writeArg s w j d = .error (addressFault s.ip w k x) := by
  obtain ⟨rfl, haddr, hneg⟩ := firstNegative_singleton h
  exact writeArg_of_negative haddr hneg w j

theorem evalRR_of_firstNegative {s : State} {a b : Arg} {k : Nat} {x : Int}
    (h : firstNegative s.rb 1 [a, b] = some (k, x)) (w : Int) : evalRR s w a b = .error (addressFault s.ip w k x) := by
  obtain ⟨y, haddr, hneg, hp⟩ | ⟨ha, hb⟩ := firstNegative_cons h
  · cases hp
    simp only [evalRR, readArg_of_negative haddr hneg]
  · simp only [evalRR, readArg_of_readable ha, readArg_of_firstNegative hb]

theorem evalRRW_of_firstNegative {s : State} {a b d : Arg} {k : Nat} {x : Int} (hd : d.mode.targets = true)
    (h : firstNegative s.rb 1 [a, b, d] = some (k, x)) (w : Int) :
    evalRRW s w a b d = .error (addressFault s.ip w k x) := by
  simp only [evalRRW, checkTarget, hd, if_true]
  obtain ⟨y, haddr, hneg, hp⟩ | ⟨ha, h⟩ := firstNegative_cons h
  · cases hp
    simp only [evalRR, readArg_of_negative haddr hneg]
  obtain ⟨y, haddr, hneg, hp⟩ | ⟨hb, h⟩ := firstNegative_cons h
  · cases hp
    simp only [evalRR, readArg_of_readable ha, readArg_of_negative haddr hneg]
  · simp only [evalRR, readArg_of_readable ha, readArg_of_readable hb, writeArg_of_firstNegative h]

/-- The arguments' fault is the whole step of ADD, MUL, LT and EQ. -/
theorem binary_of_error {w : Int} {a b d : Arg} {s : State} {f : FaultRecord} (h : evalRRW s w a b d = .error f)
    (alu : Int → Int → Int) : binary w a b d alu s = .raise f s := by
  rw [binary, h]

/-- The arguments' fault is the whole step of JT and JF. -/
theorem jump_of_error {w : Int} {a b : Arg} {s : State} {f : FaultRecord} (h : evalRR s w a b = .error f)
    (taken : Int → Bool) : jump w a b taken s = .raise f s := by
  rw [jump, h]

theorem result_of_firstNegative {i : Instr} {s : State} {k : Nat} {x : Int} (hi : i.wellFormed = true)
    (h : firstNegative s.rb 1 i.args = some (k, x)) : result i s = .raise (addressFault s.ip i.word k x) s := by
  cases i with
  | add a b d | mul a b d | lt a b d | eq a b d => exact binary_of_error (evalRRW_of_firstNegative hi h _) _
  | jt a b | jf a b => exact jump_of_error (evalRR_of_firstNegative h _) _
  | inp d => rw [result, resultInp, writeArg_of_firstNegative h]
  | out a => rw [result, resultOut, readArg_of_firstNegative h]
  | arb a => rw [result, resultArb, readArg_of_firstNegative h]
  | hlt => cases h

/-- Where an instruction raises a fault, `exec` answers the state with the fault in its status alone (R82, R150). -/
theorem exec_of_raise {i : Instr} {s : State} {f : FaultRecord} (h : result i s = .raise f s) :
    exec i s = .next { s with status := .faulted f } := by
  rw [exec_eq_result, h]
  rfl

/-- Settles O18, argument by argument: those before the first negative address are readable. -/
theorem negativeAddressStopsEveryInstruction : Obligations.NegativeAddressStopsEveryInstruction := by
  unfold Obligations.NegativeAddressStopsEveryInstruction
  exact fun i s k x hi h => exec_of_raise (result_of_firstNegative hi h)

/-- What makes a term ill formed is an immediate write argument (R71). -/
theorem Instr.immediate_target_of_not_wellFormed {i : Instr} (h : i.wellFormed = false) :
    ∃ k d, i.target? = some (k, d) ∧ d.mode = .immediate := by
  unfold Instr.wellFormed at h
  split at h
  case h_1 k d ht =>
    refine ⟨k, d, ht, ?_⟩
    cases hm : d.mode with
    | immediate => rfl
    | position | relative => simp [hm, Mode.targets] at h
  case h_2 => cases h

theorem evalRRW_of_immediate {d : Arg} (h : d.mode = .immediate) (s : State) (w : Int) (a b : Arg) :
    evalRRW s w a b d = .error (targetModeFault s.ip w 3) := by
  simp [evalRRW, checkTarget, h, Mode.targets]

theorem result_of_immediate_target {i : Instr} {k : Nat} {d : Arg} (ht : i.target? = some (k, d))
    (hd : d.mode = .immediate) (s : State) : result i s = .raise (targetModeFault s.ip i.word k) s := by
  cases i with
  | add | mul | lt | eq =>
    cases ht
    exact binary_of_error (evalRRW_of_immediate hd s _ _ _) _
  | inp =>
    cases ht
    rw [result, resultInp, writeArg_of_immediate hd]
  | out | jt | jf | arb | hlt => cases ht

/-- Settles O19: the ill-formed term has an immediate target, and that is refused before any address is checked. -/
theorem immediateTargetIsInvalidMode : Obligations.ImmediateTargetIsInvalidMode := by
  unfold Obligations.ImmediateTargetIsInvalidMode
  intro i s hi
  obtain ⟨k, d, ht, hd⟩ := Instr.immediate_target_of_not_wellFormed hi
  exact ⟨k, d, ht, hd, exec_of_raise (result_of_immediate_target ht hd s)⟩

end Sys2Proof.Machine
end

section
/-! ## What a write changes (20_memory.md R41, R43, R59) -/

namespace Sys2Proof.Machine

/-- Settles O33, by `Memory.read_write`, the induction on the list of cells. -/
theorem memWriteChangesOneCell : Obligations.MemWriteChangesOneCell := by
  unfold Obligations.MemWriteChangesOneCell
  exact fun _ a b v h => Memory.read_write h a v b

theorem fetch_of_negative (m : Memory) {ip : Int} (h : ip < 0) : fetch m ip = .error (fetchFault ip) := if_pos h

@[simp] theorem fetch_natCast (m : Memory) (n : Nat) : fetch m n = .ok (Memory.read m n) := if_neg (by omega)

/-- Settles O34: a negative ip is no cell's address, and at any other the fetch reads the cell. -/
theorem fetchSeesEveryEarlierWrite : Obligations.FetchSeesEveryEarlierWrite := by
  unfold Obligations.FetchSeesEveryEarlierWrite
  intro m a v ip hm
  obtain hneg | hip := lt_or_ge ip 0
  · rw [fetch_of_negative _ hneg, fetch_of_negative _ hneg, if_neg (by omega)]
  · obtain ⟨n, rfl⟩ := Int.eq_ofNat_of_zero_le hip
    simp only [fetch_natCast, Memory.read_write hm, Nat.cast_inj]
    split_ifs <;> rfl

/-- A store changes the one cell it names (R43). -/
theorem State.load_store {s : State} (h : Memory.wf s.mem) (a : Nat) (v : Int) (b : Nat) :
    (s.store a v).load b = if b = a then v else s.load b := Memory.read_write h a v b

/-- Settles O37: the cell written reads the word, and every other one what the image gives there. -/
theorem growthPadsWithZeros : Obligations.GrowthPadsWithZeros := by
  unfold Obligations.GrowthPadsWithZeros
  intro image i j v hj hji
  have hload := State.load_store (State.construct_mem_wf image) i v
  refine ⟨?_, ?_, fun a ha => ?_⟩
  · rw [hload, if_pos rfl]
  · rw [hload, if_neg hji.ne, State.construct_load, List.getD_eq_default _ _ hj]
  · rw [hload, if_neg (by omega), State.construct_load]

end Sys2Proof.Machine
end

section
/-! ## The frames of an instruction (20_memory.md R45, 30_encoding.md R81, R82)

A fault leaves everything but the status; what an instruction that raises none changes is read off the cases of
`Executes`. -/

namespace Sys2Proof.Machine

/-- Memory is left as it was, or one word is written at the cell the write argument names (R45). -/
theorem Executes.mem_cases {s : State} {i : Instr} {r : StepResult} (h : Executes s i r) :
    r.state.mem = s.mem ∨
      ∃ k d c v, i.target? = some (k, d) ∧ Arg.targets s d c ∧ r.state.mem = Memory.write s.mem c v := by
  cases h with
  | stores v htarget hc => exact .inr ⟨_, _, _, v, htarget, hc, rfl⟩
  | takes hc _ => exact .inr ⟨_, _, _, _, rfl, hc, rfl⟩
  | jumps | waits | emits | adjusts | halts => exact .inl rfl

/-- Only ARB sets rb (R131). -/
theorem Executes.rb_eq {s : State} {i : Instr} {r : StepResult} (h : Executes s i r) (hop : i.op ≠ .arb) :
    r.state.rb = s.rb := by
  cases h with
  | adjusts => exact absurd rfl hop
  | stores | jumps | waits | takes | emits | halts => rfl

/-- A next state of `exec` is the old one with a fault, or the one the instruction leaves that raised none. -/
theorem exec_raises_or_executes {i : Instr} {s t : State} (h : exec i s = .next t) :
    (∃ f, t = { s with status := .faulted f }) ∨ ∃ r, Executes s i r ∧ r.state = t := by
  obtain ⟨f, hraise⟩ | hexec := result_raises_or_executes i s
  · rw [exec_of_raise hraise] at h
    cases h
    exact .inl ⟨f, rfl⟩
  · exact .inr ⟨_, hexec, exec_next_iff.1 h⟩

theorem exec_mem_cases {i : Instr} {s t : State} (h : exec i s = .next t) :
    t.mem = s.mem ∨ ∃ k d c v, i.target? = some (k, d) ∧ Arg.targets s d c ∧ t.mem = Memory.write s.mem c v := by
  obtain ⟨f, rfl⟩ | ⟨r, hexec, rfl⟩ := exec_raises_or_executes h
  · exact .inl rfl
  · exact hexec.mem_cases

/-- Settles O39: the one word an instruction can write is at the cell its write argument names. -/
theorem onlyTheTargetCellChanges : Obligations.OnlyTheTargetCellChanges := by
  unfold Obligations.OnlyTheTargetCellChanges
  intro i s t hwf h
  obtain hmem | ⟨k, d, c, v, ht, hc, hmem⟩ := exec_mem_cases h
  · exact ⟨fun _ _ _ _ _ a _ => congrArg (Memory.read · a) hmem, fun _ => hmem, fun _ _ _ _ => hmem⟩
  · refine ⟨fun k' d' c' ht' hc' a ha => ?_, fun hnone => ?_, fun k' d' ht' hno => ?_⟩
    · cases ht.symm.trans ht'
      have hac : a ≠ c := Arg.targets_unique hc hc' ▸ ha
      rw [State.load, hmem, Memory.read_write hwf, if_neg hac, State.load]
    · cases ht.symm.trans hnone
    · cases ht.symm.trans ht'
      exact absurd hc (hno c)

/-- Settles O40: a fault changes no register but the status, and each register has one instruction that changes it. -/
theorem registersChangeOnlyUnderTheirInstruction : Obligations.RegistersChangeOnlyUnderTheirInstruction := by
  unfold Obligations.RegistersChangeOnlyUnderTheirInstruction
  intro i s t h
  obtain ⟨f, rfl⟩ | ⟨r, hexec, rfl⟩ := exec_raises_or_executes h
  · exact ⟨fun _ => rfl, fun _ => rfl, .inl rfl, fun _ => rfl, .inr (.inr ⟨f, rfl⟩)⟩
  · refine ⟨hexec.rb_eq, fun hop => ?_, ?_, fun hop => ?_, ?_⟩
    · obtain hinq | ⟨x, d, -, rfl⟩ := hexec.inq_cases
      · exact hinq
      · exact absurd rfl hop
    · exact hexec.inq_cases.imp_right fun ⟨x, _, hq, _⟩ => ⟨x, hq⟩
    · obtain hlast | ⟨a, rfl, -⟩ := hexec.lastOut_cases
      · exact hlast
      · exact absurd rfl hop
    · obtain hstatus | ⟨rfl, hstatus⟩ := hexec.status_cases
      · exact .inl hstatus
      · exact .inr (.inl ⟨rfl, hstatus⟩)

end Sys2Proof.Machine
end

section
/-! ## Which words the mode decoder accepts, and which it refuses (30_encoding.md R62 to R75)

The converses of the facts about an accepted word: decoding and encoding are inverse to each other on the heads whose
modes fit their roles, and each refusal has its exact reason. -/

namespace Sys2Proof

/-- The opcode table read from either column (R62). -/
theorem Op.ofCode?_eq_some_iff {c : Nat} {o : Op} : Op.ofCode? c = some o ↔ c = o.code := by
  refine ⟨Op.code_eq_of_ofCode?, ?_⟩
  rintro rfl
  cases o <;> rfl

theorem Op.code_lt (o : Op) : o.code < 100 := by cases o <;> decide

theorem Mode.ofDigit?_digit (m : Mode) : Mode.ofDigit? m.digit = some m := by cases m <;> rfl

theorem Mode.digit_le (m : Mode) : m.digit ≤ 2 := by cases m <;> decide

/-- The modes accepted for an argument are exactly the one its digit names, where that fits the role (R65, R71). -/
theorem decodeMode_ok_iff {w k : Nat} {r : Role} {m : Mode} :
    decodeMode w k r = .ok m ↔ m.digit = digit w (k + 1) ∧ Mode.fits r m := by
  refine ⟨decodeMode_ok, fun ⟨hdigit, hfits⟩ => ?_⟩
  have hgood : ¬(r = .write ∧ m = .immediate) := by
    rintro ⟨rfl, rfl⟩
    exact Bool.noConfusion (hfits rfl)
  simp only [decodeMode, ← hdigit, Mode.ofDigit?_digit, if_neg hgood]

/-- The modes accepted are exactly the fitting ones whose number stands in the word's digits from `k + 1` on. -/
theorem decodeModes_ok_iff {w k : Nat} {rs : List Role} {ms : List Mode} :
    decodeModes w k rs = .ok ms ↔
      List.Forall₂ Mode.fits rs ms ∧ modeDigits ms = w / 10 ^ (k + 1) % 10 ^ rs.length := by
  refine ⟨fun h => ⟨decodeModes_fit h, modeDigits_of_decodeModes h⟩, ?_⟩
  rintro ⟨hfit, hdigits⟩
  induction hfit generalizing k with
  | nil => rfl
  | @cons r m rs ms hm _ ih =>
    rw [modeDigits, List.length_cons, pow_succ' 10 rs.length, Nat.mod_mul, Nat.div_div_eq_div_mul,
      ← pow_succ] at hdigits
    have hle := m.digit_le
    have hfirst : m.digit = digit w (k + 1) := by
      unfold digit
      omega
    have hrest : modeDigits ms = w / 10 ^ (k + 1 + 1) % 10 ^ rs.length := by
      unfold digit at hfirst
      omega
    rw [decodeModes, decodeMode_ok_iff.2 ⟨hfirst, hm⟩, ih hrest]

theorem modeDigits_lt (ms : List Mode) : modeDigits ms < 10 ^ ms.length := by
  induction ms with
  | nil => exact Nat.one_pos
  | cons m ms ih =>
    have hle := m.digit_le
    rw [modeDigits, List.length_cons, pow_succ']
    omega

theorem decodeHead_of_neg {w : Int} (h : w < 0) : decodeHead w = .error .unknownOpcode := if_pos h

theorem decodeHead_of_no_code {n : Nat} (h : ∀ o : Op, o.code ≠ n % 100) :
    decodeHead n = .error .unknownOpcode := by
  have hnone : Op.ofCode? (digits n 1 0) = none := by
    rw [Option.eq_none_iff_forall_ne_some]
    intro o ho
    exact h o (by simpa [digits] using (Op.ofCode?_eq_some_iff.1 ho).symm)
  simp [decodeHead, hnone, not_lt.2 (Int.natCast_nonneg n)]

/-- On a word with the operation's code, what is left to check is the excess digits and then the modes (R70, R71). -/
theorem decodeHead_of_code {n : Nat} {o : Op} (h : o.code = n % 100) :
    decodeHead n =
      if n / 10 ^ (o.arity + 2) ≠ 0 then .error .unknownOpcode else (decodeModes n 1 o.roles).map (Head.mk o) := by
  have hsome : Op.ofCode? (digits n 1 0) = some o := Op.ofCode?_eq_some_iff.2 (by simpa [digits] using h.symm)
  simp only [decodeHead, if_neg (not_lt.2 (Int.natCast_nonneg n)), Int.toNat_natCast, hsome, above]
  cases decodeModes n 1 o.roles <;> rfl

/-- Decoding the word of a head whose modes fit gives the head back (R60, R65, R75). -/
theorem decodeHead_word {h : Head} (hfit : List.Forall₂ Mode.fits h.op.roles h.modes) :
    decodeHead h.word = .ok h := by
  have hcode := h.op.code_lt
  have hlen : h.op.roles.length = h.modes.length := hfit.length_eq
  have hlow : (h.op.code + 100 * modeDigits h.modes) / 10 ^ 2 = modeDigits h.modes := by omega
  have hlt : modeDigits h.modes < 10 ^ h.op.roles.length := hlen ▸ modeDigits_lt h.modes
  have habove : (h.op.code + 100 * modeDigits h.modes) / 10 ^ (h.op.arity + 2) = 0 := by
    rw [Nat.add_comm h.op.arity 2, pow_add, ← Nat.div_div_eq_div_mul, hlow]
    exact Nat.div_eq_of_lt hlt
  have hmodes : decodeModes (h.op.code + 100 * modeDigits h.modes) 1 h.op.roles = .ok h.modes :=
    decodeModes_ok_iff.2 ⟨hfit, by rw [hlow, Nat.mod_eq_of_lt hlt]⟩
  rw [Head.word, decodeHead_of_code (o := h.op) (by omega), if_neg (not_not.2 habove), hmodes]
  rfl

/-- The accepted words are exactly the words of the heads whose modes fit. -/
theorem decodeHead_ok_iff {w : Int} {h : Head} :
    decodeHead w = .ok h ↔ List.Forall₂ Mode.fits h.op.roles h.modes ∧ h.word = w := by
  refine ⟨fun hd => ⟨decodeHead_modes_fit hd, word_of_decodeHead hd⟩, ?_⟩
  rintro ⟨hfit, rfl⟩
  exact decodeHead_word hfit

/-- A well-formed instruction is one whose modes fit their roles (R63, R71). -/
theorem Instr.wellFormed_iff_fits (i : Instr) :
    i.wellFormed = true ↔ List.Forall₂ Mode.fits i.head.op.roles i.head.modes := by
  cases i <;> simp [Instr.wellFormed, Instr.target?, Instr.head, Instr.op, Instr.args, Op.roles, Mode.fits]

/-- An instruction is what its head and its operand words make (R61). -/
theorem Head.build_head {i : Instr} {raw : Nat → Int} (h : ∀ k a, i.args[k]? = some a → raw (k + 1) = a.raw) :
    i.head.build raw = i := by
  cases i with
  | add a b d | mul a b d | lt a b d | eq a b d =>
    simp [Instr.head, Instr.op, Instr.args, Head.build, Head.arg, h 0 a rfl, h 1 b rfl, h 2 d rfl]
  | jt a b | jf a b => simp [Instr.head, Instr.op, Instr.args, Head.build, Head.arg, h 0 a rfl, h 1 b rfl]
  | inp a | out a | arb a => simp [Instr.head, Instr.op, Instr.args, Head.build, Head.arg, h 0 a rfl]
  | hlt => rfl

/-- Wherever the words of a well-formed instruction stand, they decode to it. -/
theorem decodeAt_of_encode {i : Instr} {raw : Nat → Int} (hi : i.wellFormed = true)
    (h : ∀ (k : Nat) (w : Int), (encode i)[k]? = some w → raw k = w) : decodeAt raw = .ok i := by
  have hargs (k : Nat) (a : Arg) (ha : i.args[k]? = some a) : raw (k + 1) = a.raw :=
    h (k + 1) a.raw (by simp [encode, ha])
  simp only [decodeAt, h 0 i.word rfl, Instr.word, decodeHead_word ((Instr.wellFormed_iff_fits i).1 hi),
    Head.build_head hargs]

/-- Settles O2: the words of the encoding are the first of the list. -/
theorem decodeOfEncodeIsTheInstruction : Obligations.DecodeOfEncodeIsTheInstruction := by
  unfold Obligations.DecodeOfEncodeIsTheInstruction
  intro i rest hi
  refine decodeAt_of_encode hi fun k w hw => ?_
  obtain ⟨hk, -⟩ := List.getElem?_eq_some_iff.1 hw
  rw [List.getD_append _ _ _ _ hk, List.getD_eq_getElem?_getD, hw]
  rfl

end Sys2Proof
end

section
/-! ## Why the mode decoder refuses a word (30_encoding.md R68 to R71) -/

namespace Sys2Proof

/-- A mode digit that R71 refuses on an argument of the role given. -/
def BadDigit (d : Nat) (r : Option Role) : Prop := 2 < d ∨ d = 1 ∧ r = some .write

theorem Mode.exists_digit {d : Nat} (h : d ≤ 2) : ∃ m : Mode, m.digit = d := by
  match d, h with
  | 0, _ => exact ⟨.position, rfl⟩
  | 1, _ => exact ⟨.immediate, rfl⟩
  | 2, _ => exact ⟨.relative, rfl⟩

theorem Mode.ofDigit?_of_gt {d : Nat} (h : 2 < d) : Mode.ofDigit? d = none := by
  match d, h with
  | _ + 3, _ => rfl

theorem decodeMode_of_bad {w k : Nat} {r : Role} (h : BadDigit (digit w (k + 1)) (some r)) :
    decodeMode w k r = .error (.invalidMode k (digit w (k + 1))) := by
  obtain hgt | ⟨hone, hr⟩ := h
  · simp only [decodeMode, Mode.ofDigit?_of_gt hgt]
  · cases hr
    simp [decodeMode, hone, Mode.ofDigit?]

theorem decodeMode_of_good {w k : Nat} {r : Role} (h : ¬BadDigit (digit w (k + 1)) (some r)) :
    ∃ m, decodeMode w k r = .ok m := by
  obtain ⟨m, hm⟩ := Mode.exists_digit (not_lt.1 (not_or.1 h).1)
  refine ⟨m, decodeMode_ok_iff.2 ⟨hm, ?_⟩⟩
  rintro rfl
  cases m with
  | immediate => exact absurd (.inr ⟨hm.symm, rfl⟩) h
  | position | relative => rfl

/-- The modes are refused exactly with the first argument that has a bad digit (R71). -/
theorem decodeModes_error_iff {w k : Nat} {rs : List Role} {e : DecodeFault} :
    decodeModes w k rs = .error e ↔
      ∃ j < rs.length, e = .invalidMode (k + j) (digit w (k + j + 1)) ∧ BadDigit (digit w (k + j + 1)) rs[j]? ∧
        ∀ i < j, ¬BadDigit (digit w (k + i + 1)) rs[i]? := by
  induction rs generalizing k with
  | nil => simp [decodeModes]
  | cons r rs ih =>
    simp only [List.length_cons, Nat.exists_lt_succ_left, Nat.forall_lt_succ_left]
    by_cases hbad : BadDigit (digit w (k + 1)) (some r)
    · simp [decodeModes, decodeMode_of_bad hbad, hbad, eq_comm]
    · obtain ⟨m, hm⟩ := decodeMode_of_good hbad
      have hcons : decodeModes w k (r :: rs) = .error e ↔ decodeModes w (k + 1) rs = .error e := by
        simp only [decodeModes, hm]
        cases decodeModes w (k + 1) rs <;> simp
      have hnext (j : Nat) : k + 1 + j = k + (j + 1) := by omega
      simp [hcons, ih, hbad, hnext]

theorem Op.arity_le (o : Op) : o.arity ≤ 3 := by cases o <;> decide

theorem digit_lt (w k : Nat) : digit w k < 10 := Nat.mod_lt _ (by decide)

/-- A mode that is refused is that of argument 1, 2 or 3, and its digit is not 0 (R71). -/
theorem decodeModes_error {w : Nat} {o : Op} {e : DecodeFault} (h : decodeModes w 1 o.roles = .error e) :
    ∃ k d, e = .invalidMode k d ∧ 1 ≤ k ∧ k ≤ 3 ∧ 1 ≤ d ∧ d ≤ 9 := by
  obtain ⟨j, hj, he, hbad, -⟩ := decodeModes_error_iff.1 h
  refine ⟨_, _, he, Nat.le_add_right 1 j, ?_, ?_, Nat.le_of_lt_succ (digit_lt _ _)⟩
  · have hlt : j < o.arity := hj
    have hle := o.arity_le
    omega
  · obtain hgt | ⟨hone, -⟩ := hbad <;> omega

theorem decodeModes_ne_unknownOpcode (w : Nat) (o : Op) : decodeModes w 1 o.roles ≠ .error .unknownOpcode := by
  intro h
  obtain ⟨k, d, he, -⟩ := decodeModes_error h
  cases he

/-- Without excess digits a word with the operation's code is refused as its modes are. -/
theorem decodeHead_error_iff_of_code {n : Nat} {o : Op} {e : DecodeFault} (hcode : o.code = n % 100)
    (habove : n / 10 ^ (o.arity + 2) = 0) : decodeHead n = .error e ↔ decodeModes n 1 o.roles = .error e := by
  rw [decodeHead_of_code hcode, if_neg (not_not.2 habove)]
  cases decodeModes n 1 o.roles <;> simp [Except.map]

theorem decodeHead_of_excess {n : Nat} {o : Op} (hcode : o.code = n % 100) (h : n / 10 ^ (o.arity + 2) ≠ 0) :
    decodeHead n = .error .unknownOpcode := by
  rw [decodeHead_of_code hcode, if_pos h]

/-- The refusals of a word, by what is wrong with it. -/
theorem decodeHead_error_cases {w : Int} {e : DecodeFault} (h : decodeHead w = .error e) :
    e = .unknownOpcode ∨ ∃ k d, e = .invalidMode k d ∧ 1 ≤ k ∧ k ≤ 3 ∧ 1 ≤ d ∧ d ≤ 9 := by
  obtain hneg | hw := lt_or_ge w 0
  · rw [decodeHead_of_neg hneg] at h
    cases h
    exact .inl rfl
  obtain ⟨n, rfl⟩ := Int.eq_ofNat_of_zero_le hw
  by_cases hcode : ∃ o : Op, o.code = n % 100
  · obtain ⟨o, hcode⟩ := hcode
    by_cases habove : n / 10 ^ (o.arity + 2) = 0
    · exact .inr (decodeModes_error ((decodeHead_error_iff_of_code hcode habove).1 h))
    · rw [decodeHead_of_excess hcode habove] at h
      cases h
      exact .inl rfl
  · rw [decodeHead_of_no_code (not_exists.1 hcode)] at h
    cases h
    exact .inl rfl

/-- R69 and R70 on a word that is not negative. -/
theorem decodeHead_unknownOpcode_iff {n : Nat} :
    decodeHead n = .error .unknownOpcode ↔
      (∀ o : Op, o.code ≠ n % 100) ∨ ∃ o : Op, o.code = n % 100 ∧ n / 10 ^ (o.arity + 2) ≠ 0 := by
  refine ⟨fun h => ?_, ?_⟩
  · by_contra! hno
    obtain ⟨⟨o, hcode⟩, hexcess⟩ := hno
    exact decodeModes_ne_unknownOpcode n o ((decodeHead_error_iff_of_code hcode (hexcess o hcode)).1 h)
  · rintro (hno | ⟨o, hcode, hexcess⟩)
    · exact decodeHead_of_no_code hno
    · exact decodeHead_of_excess hcode hexcess

/-- Settles O7: a negative word by itself, and any other as a natural number. -/
theorem unknownOpcodeExactly : Obligations.UnknownOpcodeExactly := by
  unfold Obligations.UnknownOpcodeExactly
  intro w
  obtain hneg | hw := lt_or_ge w 0
  · simp only [decodeHead_of_neg hneg, hneg, true_or]
  · obtain ⟨n, rfl⟩ := Int.eq_ofNat_of_zero_le hw
    rw [or_iff_right (not_lt.2 hw)]
    exact_mod_cast decodeHead_unknownOpcode_iff

/-- R71 in the spec's own numbering of the arguments, from 1. -/
theorem decodeHead_invalidMode_iff {n k d : Nat} {o : Op} (hcode : o.code = n % 100)
    (habove : n / 10 ^ (o.arity + 2) = 0) :
    decodeHead n = .error (.invalidMode k d) ↔
      1 ≤ k ∧ k ≤ o.arity ∧ d = digit n (k + 1) ∧ BadDigit d o.roles[k - 1]? ∧
        ∀ j, 1 ≤ j → j < k → ¬BadDigit (digit n (j + 1)) o.roles[j - 1]? := by
  rw [decodeHead_error_iff_of_code hcode habove, decodeModes_error_iff]
  constructor
  · rintro ⟨j, hj, he, hbad, hfirst⟩
    cases he
    refine ⟨Nat.le_add_right 1 j, Nat.one_add_le_iff.2 hj, rfl, ?_, fun i hi hij => ?_⟩
    · rwa [Nat.add_sub_cancel_left]
    · have hi' := hfirst (i - 1) (by omega)
      rwa [Nat.add_sub_cancel' hi] at hi'
  · rintro ⟨hk, hle, rfl, hbad, hfirst⟩
    obtain ⟨j, rfl⟩ := Nat.exists_eq_add_of_le hk
    rw [Nat.add_sub_cancel_left] at hbad
    refine ⟨j, Nat.one_add_le_iff.1 hle, rfl, hbad, fun i hij => ?_⟩
    have hi := hfirst (1 + i) (Nat.le_add_right 1 i) (by omega)
    rwa [Nat.add_sub_cancel_left] at hi

end Sys2Proof
end

section
/-! ## The encoding read backwards, and the spec's tables (30_encoding.md R61, R62, R65, R73, R74) -/

namespace Sys2Proof

theorem decodeAt_ok {raw : Nat → Int} {i : Instr} (h : decodeAt raw = .ok i) :
    ∃ hd, decodeHead (raw 0) = .ok hd ∧ i = hd.build raw := by
  unfold decodeAt at h
  split at h
  case h_1 => cases h
  case h_2 hd hok =>
    cases h
    exact ⟨hd, hok, rfl⟩

theorem Head.op_build (h : Head) (raw : Nat → Int) : (h.build raw).op = h.op := by
  obtain ⟨o, ms⟩ := h
  cases o <;> rfl

/-- The operand words of a built instruction are the words after the first (R61). -/
theorem Head.raws_build (h : Head) (raw : Nat → Int) :
    (h.build raw).args.map Arg.raw = (List.range h.op.arity).map fun k => raw (k + 1) := by
  obtain ⟨o, ms⟩ := h
  cases o <;> rfl

/-- A head with one mode for each argument is the head of what it builds. -/
theorem Head.head_build {h : Head} (hlen : h.modes.length = h.op.arity) (raw : Nat → Int) :
    (h.build raw).head = h := by
  obtain ⟨o, ms⟩ := h
  cases o with
  | add | mul | lt | eq =>
    obtain ⟨m1, m2, m3, rfl⟩ := List.length_eq_three.1 hlen
    rfl
  | jt | jf =>
    obtain ⟨m1, m2, rfl⟩ := List.length_eq_two.1 hlen
    rfl
  | inp | out | arb =>
    obtain ⟨m, rfl⟩ := List.length_eq_one_iff.1 hlen
    rfl
  | hlt =>
    cases List.length_eq_zero_iff.1 hlen
    rfl

/-- An accepted word is the head of the instruction it starts. -/
theorem head_build_of_decodeHead {w : Int} {h : Head} (hd : decodeHead w = .ok h) (raw : Nat → Int) :
    (h.build raw).head = h :=
  Head.head_build (decodeHead_modes_fit hd).length_eq.symm raw

theorem wellFormed_build {w : Int} {h : Head} (hd : decodeHead w = .ok h) (raw : Nat → Int) :
    (h.build raw).wellFormed = true := by
  rw [Instr.wellFormed_iff_fits, head_build_of_decodeHead hd]
  exact decodeHead_modes_fit hd

theorem word_build {w : Int} {h : Head} (hd : decodeHead w = .ok h) (raw : Nat → Int) : (h.build raw).word = w := by
  rw [Instr.word, head_build_of_decodeHead hd, word_of_decodeHead hd]

theorem encode_build {raw : Nat → Int} {h : Head} (hd : decodeHead (raw 0) = .ok h) :
    encode (h.build raw) = (List.range (h.build raw).length).map raw := by
  rw [encode, word_build hd, Head.raws_build, Instr.length, Head.op_build, Nat.add_comm, List.range_succ_eq_map,
    List.map_cons, List.map_map]
  rfl

/-- Settles O3: the instruction is built from the head that the first word makes and from the words after it. -/
theorem encodeOfDecodeIsTheWords : Obligations.EncodeOfDecodeIsTheWords := by
  unfold Obligations.EncodeOfDecodeIsTheWords
  intro ws i h
  obtain ⟨hd, hok, rfl⟩ := decodeAt_ok h
  exact ⟨wellFormed_build hok _, encode_build hok⟩

/-- The modes an argument of the role may have, by rising digit (R66, R71). -/
def Role.modes : Role → List Mode
  | .read => [.position, .immediate, .relative]
  | .write => [.position, .relative]

theorem Role.mem_modes {r : Role} {m : Mode} : m ∈ r.modes ↔ Mode.fits r m := by
  cases r <;> cases m <;> simp [Role.modes, Mode.fits, Mode.targets]

/-- The lists of modes that fit a list of roles, argument 1's mode varying fastest, as R73 lists the words. -/
def fittingModes : List Role → List (List Mode)
  | [] => [[]]
  | r :: rs => (fittingModes rs).flatMap fun ms => r.modes.map (· :: ms)

theorem mem_fittingModes {rs : List Role} {ms : List Mode} :
    ms ∈ fittingModes rs ↔ List.Forall₂ Mode.fits rs ms := by
  induction rs generalizing ms with
  | nil => simp [fittingModes]
  | cons r rs ih =>
    cases ms with
    | nil => simp [fittingModes]
    | cons m ms => simp [fittingModes, ih, Role.mem_modes, and_comm]

/-- R73's table lists the words of the fitting modes. -/
theorem legalWords_eq (o : Op) : legalWords o = (fittingModes o.roles).map fun ms => Head.word ⟨o, ms⟩ := by
  cases o <;> decide

theorem mem_legalWords {w : Int} {o : Op} : w ∈ legalWords o ↔ ∃ ms, decodeHead w = .ok ⟨o, ms⟩ := by
  simp only [legalWords_eq, List.mem_map, mem_fittingModes, decodeHead_ok_iff]

/-- Settles O4: the accepted words of an operation are those of its fitting modes, and the table lists these. -/
theorem legalWordsAreTheTable : Obligations.LegalWordsAreTheTable := by
  unfold Obligations.LegalWordsAreTheTable
  exact ⟨fun _ _ => mem_legalWords.symm, by decide, rfl⟩

/-- The mode at place `j` of the modes read from argument `k` on is decimal digit `k + j + 1` (R65). -/
theorem digit_of_decodeModes {w k : Nat} {rs : List Role} {ms : List Mode} (h : decodeModes w k rs = .ok ms)
    {j : Nat} {m : Mode} (hm : ms[j]? = some m) : m.digit = digit w (k + j + 1) := by
  induction rs generalizing k ms j with
  | nil =>
    cases h
    cases hm
  | cons r rs ih =>
    obtain ⟨m', ms', rfl, hfirst, hrest⟩ := decodeModes_cons_ok h
    cases j with
    | zero =>
      cases hm
      exact (decodeMode_ok hfirst).1
    | succ j => simpa only [Nat.add_right_comm, Nat.add_assoc] using ih hrest hm

/-- Settles O6: one fitting mode for each role, each read from its own digit. -/
theorem modesAreTheDecimalDigits : Obligations.ModesAreTheDecimalDigits := by
  unfold Obligations.ModesAreTheDecimalDigits
  intro w h hd
  refine ⟨(decodeHead_modes_fit hd).length_eq.symm, fun k m hk hm => ?_⟩
  obtain ⟨hw, -, -, hms⟩ := decodeHead_ok hd
  obtain ⟨n, rfl⟩ := Int.eq_ofNat_of_zero_le hw
  have hdigit := digit_of_decodeModes hms hm
  rw [Nat.add_sub_cancel' hk] at hdigit
  exact_mod_cast hdigit

/-- Settles O5: the table row by row, and a word with no code of the table has no operation's code. -/
theorem opcodeTableIsTheSpecs : Obligations.OpcodeTableIsTheSpecs := by
  unfold Obligations.OpcodeTableIsTheSpecs
  refine ⟨fun c o => ?_, fun i => ?_, fun w hw hno => ?_⟩
  · rw [Op.ofCode?_eq_some_iff]
    cases o <;> simp [Op.code]
  · cases i <;> simp [Instr.op, Instr.length, Op.arity, Op.roles]
  · obtain ⟨n, rfl⟩ := Int.eq_ofNat_of_zero_le hw
    refine decodeHead_of_no_code fun o ho => hno ?_
    have hmod : (n : Int) % 100 = o.code := by exact_mod_cast ho.symm
    rw [hmod]
    cases o <;> decide

/-- Settles O1, word by word. -/
theorem specWordsDecode : Obligations.SpecWordsDecode := by
  unfold Obligations.SpecWordsDecode
  decide

end Sys2Proof
end

section
/-! ## Fetch, decode and the step (30_encoding.md R71, R77 to R83, 60_exceptions.md R150) -/

namespace Sys2Proof

/-- The table has no instruction of more than four words, so no word further on is read (R62). -/
theorem Head.build_congr (h : Head) {raw raw' : Nat → Int} (heq : ∀ k ≤ 3, raw k = raw' k) :
    h.build raw = h.build raw' := by
  obtain ⟨o, ms⟩ := h
  cases o <;> simp [Head.build, Head.arg, heq]

theorem decodeAt_congr {raw raw' : Nat → Int} (heq : ∀ k ≤ 3, raw k = raw' k) : decodeAt raw = decodeAt raw' := by
  simp only [decodeAt, heq 0 (Nat.zero_le 3), Head.build_congr _ heq]

/-- Four words hold a whole instruction. -/
theorem decode_four_words (raw : Nat → Int) : decode [raw 0, raw 1, raw 2, raw 3] = decodeAt raw :=
  decodeAt_congr fun k hk => by
    match k, hk with
    | 0, _ | 1, _ | 2, _ | 3, _ => rfl

end Sys2Proof

namespace Sys2Proof.Machine

theorem fetchDecode_of_negative {s : State} (h : s.ip < 0) : fetchDecode s = .error (fetchFault s.ip) := by
  simp only [fetchDecode, fetch_of_negative _ h]

theorem fetchDecode_of_refused {s : State} {e : DecodeFault} (hip : 0 ≤ s.ip)
    (h : decodeHead (s.load s.ip.toNat) = .error e) :
    fetchDecode s = .error (DecodeFault.record s.ip (s.load s.ip.toNat) e) := by
  unfold State.load at h ⊢
  simp only [fetchDecode, fetch, if_neg (not_lt.2 hip), h]

theorem fetchDecode_of_decodeAt {s : State} {i : Instr} (hip : 0 ≤ s.ip)
    (h : decodeAt (fun k => s.load (s.ip.toNat + k)) = .ok i) : fetchDecode s = .ok i := by
  obtain ⟨hd, hok, rfl⟩ := decodeAt_ok h
  unfold State.load at hok
  simp only [fetchDecode, fetch, if_neg (not_lt.2 hip)]
  rw [← Nat.add_zero s.ip.toNat, hok]

theorem cycle_of_fault {s : State} {f : FaultRecord} (h : fetchDecode s = .error f) : cycle s = .raise f s := by
  rw [cycle, h]

theorem cycle_of_instr {s : State} {i : Instr} (h : fetchDecode s = .ok i) : cycle s = result i s := by
  rw [cycle, h]

theorem step_of_ready {s : State} (h : s.status = .ready) : step s = .next (cycle s).state :=
  step_next_iff.2 ⟨h, rfl⟩

theorem step_of_fault {s : State} {f : FaultRecord} (hs : s.status = .ready) (h : fetchDecode s = .error f) :
    step s = .next { s with status := .faulted f } := by
  rw [step_of_ready hs, cycle_of_fault h]
  rfl

theorem step_of_instr {s : State} {i : Instr} (hs : s.status = .ready) (h : fetchDecode s = .ok i) :
    step s = exec i s := by
  rw [step_of_ready hs, cycle_of_instr h, exec_eq_result]
  rfl

/-- Settles O8: what the decoder refuses is `decodeHead_invalidMode_iff`, and the cycle raises it. -/
theorem firstBadModeIsReported : Obligations.FirstBadModeIsReported := by
  unfold Obligations.FirstBadModeIsReported
  intro w o hw hcode habove
  obtain ⟨n, rfl⟩ := Int.eq_ofNat_of_zero_le hw
  have hcode' : o.code = n % 100 := by exact_mod_cast hcode
  have habove' : n / 10 ^ (o.arity + 2) = 0 := by exact_mod_cast habove
  have hdigit (k : Nat) : (n : Int) / 10 ^ k % 10 = digit n k := by simp [digit]
  refine ⟨fun k d => ?_, ?_, fun s k d _ hip hload hd => ?_⟩
  · rw [decodeHead_invalidMode_iff hcode' habove']
    simp only [hdigit, BadDigit, not_or, not_lt]
    norm_cast
  · rw [Ne, decodeHead_error_iff_of_code hcode' habove']
    exact decodeModes_ne_unknownOpcode n o
  · rw [← hload] at hd ⊢
    exact cycle_of_fault (fetchDecode_of_refused hip hd)

/-- Settles O9: fetch and decode answer the record of the refusal, and the step raises it. -/
theorem decodeFaultIsTaken : Obligations.DecodeFaultIsTaken := by
  unfold Obligations.DecodeFaultIsTaken
  exact fun s hs hip => ⟨fun hd => step_of_fault hs (fetchDecode_of_refused hip hd),
    fun k d hd => step_of_fault hs (fetchDecode_of_refused hip hd)⟩

/-- Settles O10: the fetch faults before any word is decoded. -/
theorem negativeIpFaultsAtFetch : Obligations.NegativeIpFaultsAtFetch := by
  unfold Obligations.NegativeIpFaultsAtFetch
  exact fun s hs hip => step_of_fault hs (fetchDecode_of_negative hip)

/-- Settles O11: the four words hold all that fetch and decode read. -/
theorem stepRunsTheDecodedInstruction : Obligations.StepRunsTheDecodedInstruction := by
  unfold Obligations.StepRunsTheDecodedInstruction
  intro s i hs hip hd
  have hf : fetchDecode s = .ok i :=
    fetchDecode_of_decodeAt hip ((decode_four_words fun k => s.load (s.ip.toNat + k)).symm.trans hd)
  exact ⟨step_of_instr hs hf, cycle_of_instr hf⟩

/-- Settles O12, by the round trip of O2 on the words in memory. -/
theorem stepRunsTheEncodedInstruction : Obligations.StepRunsTheEncodedInstruction := by
  unfold Obligations.StepRunsTheEncodedInstruction
  exact fun s i hs hip hi hwords => step_of_instr hs (fetchDecode_of_decodeAt hip (decodeAt_of_encode hi hwords))

/-- Settles O13, from `step_next_iff`. -/
theorem stepIsTheCycleState : Obligations.StepIsTheCycleState := by
  unfold Obligations.StepIsTheCycleState
  exact fun s => step_of_ready

/-- Of the instructions only a waiting IN ends in NeedsInput, and it changes nothing (R82, R100). -/
theorem Executes.state_eq_of_needsInput {s : State} {i : Instr} {r : StepResult} (h : Executes s i r)
    (he : r.event = .needsInput) : r.state = s := by
  cases h with
  | waits => rfl
  | stores | jumps | takes | emits | adjusts | halts => cases he

/-- Settles O44: a faulting step raised the fault it leaves, and a raise ends in no other event. -/
theorem faultsArePrecise : Obligations.FaultsArePrecise := by
  unfold Obligations.FaultsArePrecise
  refine ⟨fun s t f hstep hf => ?_, fun s he => ?_⟩
  · obtain ⟨hready, rfl⟩ := step_next_iff.1 hstep
    rw [cycle_eq_raise_of_faulted hready hf]
    exact ⟨rfl, rfl⟩
  · obtain ⟨f, hraise⟩ | ⟨i, -, hexec⟩ := cycle_raises_or_executes s
    · rw [hraise] at he
      cases he
    · exact hexec.state_eq_of_needsInput he

end Sys2Proof.Machine
end

section
/-! ## A step keeps the invariant (30_encoding.md R82, 60_exceptions.md R152)

A fault record names the ip and the word that stand in the state: a decode fault by its definition, and an argument's
fault because the word of a decoded instruction is the word it was decoded from. -/

namespace Sys2Proof.Machine

/-- The faults that evaluating the arguments of an instruction with the word `w` can raise (R46, R48, R49, R50). -/
inductive ArgFault (ip w : Int) : FaultRecord → Prop where
  | mode {k : Nat} : 1 ≤ k → k ≤ 3 → ArgFault ip w (targetModeFault ip w k)
  | address {k : Nat} {x : Int} : 1 ≤ k → k ≤ 3 → x < 0 → ArgFault ip w (addressFault ip w k x)

theorem readArg_error {s : State} {w : Int} {k : Nat} {a : Arg} {f : FaultRecord} (h : readArg s w k a = .error f)
    (hk : 1 ≤ k) (hk' : k ≤ 3) : ArgFault s.ip w f := by
  obtain ⟨x, -, hx, he⟩ | ⟨-, hok⟩ := readArg_cases s w k a
  · cases he.symm.trans h
    exact .address hk hk' hx
  · cases hok.symm.trans h

theorem writeArg_error {s : State} {w : Int} {k : Nat} {a : Arg} {f : FaultRecord} (h : writeArg s w k a = .error f)
    (hk : 1 ≤ k) (hk' : k ≤ 3) : ArgFault s.ip w f := by
  obtain ⟨-, he⟩ | ⟨x, -, hx, he⟩ | ⟨t, -, hok⟩ := writeArg_cases s w k a
  · cases he.symm.trans h
    exact .mode hk hk'
  · cases he.symm.trans h
    exact .address hk hk' hx
  · cases hok.symm.trans h

theorem evalRR_error {s : State} {w : Int} {a b : Arg} {f : FaultRecord} (h : evalRR s w a b = .error f) :
    ArgFault s.ip w f := by
  unfold evalRR at h
  split at h
  case h_1 g ha =>
    cases h
    exact readArg_error ha (by decide) (by decide)
  case h_2 =>
    split at h
    case h_1 g hb =>
      cases h
      exact readArg_error hb (by decide) (by decide)
    case h_2 => cases h

theorem checkTarget_error {s : State} {w : Int} {k : Nat} {a : Arg} {f : FaultRecord}
    (h : checkTarget s w k a = .error f) (hk : 1 ≤ k) (hk' : k ≤ 3) : ArgFault s.ip w f := by
  unfold checkTarget at h
  split at h
  · cases h
  · cases h
    exact .mode hk hk'

theorem evalRRW_error {s : State} {w : Int} {a b d : Arg} {f : FaultRecord} (h : evalRRW s w a b d = .error f) :
    ArgFault s.ip w f := by
  unfold evalRRW at h
  split at h
  case h_1 g hc =>
    cases h
    exact checkTarget_error hc (by decide) (by decide)
  case h_2 =>
    split at h
    case h_1 g hab =>
      cases h
      exact evalRR_error hab
    case h_2 =>
      split at h
      case h_1 g hd =>
        cases h
        exact writeArg_error hd (by decide) (by decide)
      case h_2 => cases h

theorem binary_raises {w : Int} {a b d : Arg} {alu : Int → Int → Int} {s : State} {f : FaultRecord}
    (h : binary w a b d alu s = .raise f s) : ArgFault s.ip w f := by
  obtain ⟨g, hg, hraise⟩ | ⟨v1, v2, t, -, hok⟩ := binary_cases w a b d alu s
  · cases hraise.symm.trans h
    exact evalRRW_error hg
  · cases hok.symm.trans h

theorem jump_raises {w : Int} {a b : Arg} {taken : Int → Bool} {s : State} {f : FaultRecord}
    (h : jump w a b taken s = .raise f s) : ArgFault s.ip w f := by
  obtain ⟨g, hg, hraise⟩ | ⟨v1, v2, -, hok⟩ := jump_cases w a b taken s
  · cases hraise.symm.trans h
    exact evalRR_error hg
  · cases hok.symm.trans h

/-- The only faults of an instruction are its arguments'. -/
theorem result_raises {i : Instr} {s : State} {f : FaultRecord} (h : result i s = .raise f s) :
    ArgFault s.ip i.word f := by
  cases i with
  | add | mul | lt | eq => exact binary_raises h
  | jt | jf => exact jump_raises h
  | inp d =>
    simp only [result, resultInp] at h
    split at h
    case h_1 g hg =>
      cases h
      exact writeArg_error hg (by decide) (by decide)
    case h_2 => split at h <;> cases h
  | out a =>
    simp only [result, resultOut] at h
    split at h
    case h_1 g hg =>
      cases h
      exact readArg_error hg (by decide) (by decide)
    case h_2 => cases h
  | arb a =>
    simp only [result, resultArb] at h
    split at h
    case h_1 g hg =>
      cases h
      exact readArg_error hg (by decide) (by decide)
    case h_2 => cases h
  | hlt => cases h

theorem ArgFault.wf {ip w : Int} {f : FaultRecord} (h : ArgFault ip w f) : FaultRecord.wf f := by
  cases h with
  | mode hk hk' => exact ⟨rfl, hk, hk', 1, rfl, by decide, by decide⟩
  | @address k x hk hk' hx =>
    have hk0 : k ≠ 0 := Nat.one_le_iff_ne_zero.1 hk
    exact ⟨⟨x, rfl, hx, fun h0 => absurd h0 hk0⟩, hk', by simp [addressFault, hk0]⟩

theorem DecodeFault.record_wf {w : Int} {e : DecodeFault} (h : decodeHead w = .error e) (ip : Int) :
    FaultRecord.wf (DecodeFault.record ip w e) := by
  obtain rfl | ⟨k, d, rfl, hk, hk', hd, hd'⟩ := decodeHead_error_cases h
  · exact ⟨rfl, rfl, rfl⟩
  · exact ⟨rfl, hk, hk', d, rfl, by exact_mod_cast hd, by exact_mod_cast hd'⟩

/-- A record that names the ip and the word of the state it is raised in explains the faulted state. -/
theorem explained_of_word {s : State} {f : FaultRecord} (hwf : FaultRecord.wf f) (hip : f.ip = s.ip)
    (hword : f.word = some (s.load s.ip.toNat)) (hpos : 0 ≤ s.ip) : Status.explained (s.raise f) (.faulted f) := by
  refine ⟨hwf, hip, ?_⟩
  rw [hword]
  exact ⟨hpos, rfl⟩

theorem ArgFault.explained {s : State} {f : FaultRecord} (h : ArgFault s.ip (s.load s.ip.toNat) f)
    (hpos : 0 ≤ s.ip) : Status.explained (s.raise f) (.faulted f) := by
  refine explained_of_word h.wf ?_ ?_ hpos <;> cases h <;> rfl

/-- Every fault a cycle raises is explained by the state it was raised in. -/
theorem explained_of_cycle_raises {s : State} {f : FaultRecord} (h : cycle s = .raise f s) :
    Status.explained (s.raise f) (.faulted f) := by
  obtain ⟨hip, hf⟩ | ⟨hip, e, he, hf⟩ | ⟨hip, hd, hok, hf⟩ := fetchDecode_cases s
  · cases (cycle_of_fault hf).symm.trans h
    exact ⟨⟨⟨s.ip, rfl, hip, fun _ => rfl⟩, Nat.zero_le 3, by simp [fetchFault]⟩, rfl, hip⟩
  · cases (cycle_of_fault hf).symm.trans h
    refine explained_of_word (DecodeFault.record_wf he s.ip) ?_ ?_ hip <;> cases e <;> rfl
  · have harg := result_raises ((cycle_of_instr hf).symm.trans h)
    rw [word_build hok] at harg
    exact harg.explained hip

/-- What the status says of a state not faulted holds of every state. -/
theorem Status.explained_of_not_faulted {st : Status} (h : ∀ f, st ≠ .faulted f) (s : State) :
    Status.explained s st := by
  cases st with
  | ready | halted => trivial
  | faulted f => exact absurd rfl (h f)

theorem Executes.mem_wf {s : State} {i : Instr} {r : StepResult} (h : Executes s i r) (hwf : Memory.wf s.mem) :
    Memory.wf r.state.mem := by
  obtain hmem | ⟨_, _, c, v, -, -, hmem⟩ := h.mem_cases
  · rwa [hmem]
  · rw [hmem]
    exact Memory.write_wf hwf c v

/-- An instruction run from Ready that raises no fault leaves no faulted state. -/
theorem Executes.not_faulted {s : State} {i : Instr} {r : StepResult} (h : Executes s i r) (hs : s.status = .ready)
    (f : FaultRecord) : r.state.status ≠ .faulted f := by
  obtain hst | ⟨-, hst⟩ := h.status_cases
  · simp [hst, hs]
  · simp [hst]

theorem cycle_inv {s : State} (hs : s.status = .ready) (hinv : State.Inv s) : State.Inv (cycle s).state := by
  obtain ⟨hmem, -⟩ := hinv
  obtain ⟨f, hraise⟩ | ⟨i, -, hexec⟩ := cycle_raises_or_executes s
  · rw [hraise]
    exact ⟨hmem, explained_of_cycle_raises hraise⟩
  · exact ⟨hexec.mem_wf hmem, Status.explained_of_not_faulted (hexec.not_faulted hs) _⟩

/-- Settles O49: a step is a cycle from Ready; it raises a fault that the state explains, or raises none and writes at
most one word. -/
theorem stepKeepsTheInvariant : Obligations.StepKeepsTheInvariant := by
  unfold Obligations.StepKeepsTheInvariant
  intro s t hinv hstep
  obtain ⟨hready, rfl⟩ := step_next_iff.1 hstep
  exact cycle_inv hready hinv

end Sys2Proof.Machine
end

section
/-! ## Arguments that can be evaluated, and where an instruction that completes leaves ip (30_encoding.md R64, R76) -/

namespace Sys2Proof.Machine

theorem Arg.targets_mode {s : State} {d : Arg} {t : Nat} (h : Arg.targets s d t) : d.mode.targets = true := by
  obtain ⟨m, raw⟩ := d
  cases m with
  | immediate => cases h
  | position | relative => rfl

theorem writeArg_of_targets {s : State} {d : Arg} {t : Nat} (h : Arg.targets s d t) (w : Int) (k : Nat) :
    writeArg s w k d = .ok t := by
  rw [writeArg_of_address h, if_neg (by omega), Int.toNat_natCast]

theorem evalRR_of_readable {s : State} {a b : Arg} (ha : Arg.readable s a) (hb : Arg.readable s b) (w : Int) :
    evalRR s w a b = .ok (Arg.value s a, Arg.value s b) := by
  simp only [evalRR, readArg_of_readable ha, readArg_of_readable hb]

theorem evalRRW_of_readable {s : State} {a b d : Arg} {t : Nat} (ha : Arg.readable s a) (hb : Arg.readable s b)
    (hd : Arg.targets s d t) (w : Int) : evalRRW s w a b d = .ok (Arg.value s a, Arg.value s b, t) := by
  simp only [evalRRW, checkTarget, Arg.targets_mode hd, if_true, evalRR_of_readable ha hb, writeArg_of_targets hd]

/-- ADD, MUL, LT and EQ with readable sources and a target cell. -/
theorem binary_of_readable {s : State} {a b d : Arg} {t : Nat} (ha : Arg.readable s a) (hb : Arg.readable s b)
    (hd : Arg.targets s d t) (w : Int) (alu : Int → Int → Int) :
    binary w a b d alu s = .continue ((s.store t (alu (Arg.value s a) (Arg.value s b))).advance 4) := by
  rw [binary, evalRRW_of_readable ha hb hd]

/-- JT and JF with readable arguments. -/
theorem jump_of_readable {s : State} {a b : Arg} (ha : Arg.readable s a) (hb : Arg.readable s b) (w : Int)
    (taken : Int → Bool) :
    jump w a b taken s =
      .continue (if taken (Arg.value s a) then s.setIp (Arg.value s b) else s.advance 3) := by
  rw [jump, evalRR_of_readable ha hb]

theorem Arg.readable_of_immediate {a : Arg} (h : a.mode = .immediate) (s : State) : Arg.readable s a := by
  simp [Arg.readable, Arg.address?, h]

/-- Settles O31: JMP is a JT on the value 1, and MOV an ADD of the value 0. -/
theorem pseudoInstructionsJumpAndMove : Obligations.PseudoInstructionsJumpAndMove := by
  unfold Obligations.PseudoInstructionsJumpAndMove
  refine ⟨fun t s ht => ?_, fun a d t s ha hd => ?_⟩
  · refine exec_next_iff.2 (congrArg StepResult.state (jump_of_readable ?_ ht _ testsTrue))
    exact Arg.readable_of_immediate rfl s
  · refine exec_next_iff.2 ((congrArg StepResult.state (binary_of_readable ha ?_ hd _ _)).trans ?_)
    · exact Arg.readable_of_immediate rfl s
    · simp [StepResult.continue, Arg.value, State.store, State.advance, State.setIp]

/-- The arguments of a R,R instruction give their values, unless one of them faults. -/
theorem evalRR_ok {s : State} {w : Int} {a b : Arg} {v : Int × Int} (h : evalRR s w a b = .ok v) :
    v = (Arg.value s a, Arg.value s b) := by
  obtain ⟨x, -, -, ha⟩ | ⟨ha, -⟩ := readArg_cases s w 1 a
  · simp [evalRR, ha] at h
  obtain ⟨x, -, -, hb⟩ | ⟨hb, -⟩ := readArg_cases s w 2 b
  · simp [evalRR, readArg_of_readable ha, hb] at h
  · rw [evalRR_of_readable ha hb] at h
    exact (Except.ok.inj h).symm

/-- A jump not taken that raises no fault moves past its three words (R80). -/
theorem jump_ip_of_untaken {w : Int} {a b : Arg} {taken : Int → Bool} {s : State}
    (hok : ∀ f, (jump w a b taken s).state.status ≠ .faulted f) (ht : taken (Arg.value s a) = false) :
    (jump w a b taken s).state.ip = s.ip + 3 := by
  obtain ⟨f, -, hraise⟩ | ⟨v1, v2, hv, hj⟩ := jump_cases w a b taken s
  · rw [hraise] at hok
    exact absurd rfl (hok f)
  · cases evalRR_ok hv
    rw [hj, ht]
    rfl

/-- The write-role argument is the last one (R63). -/
theorem Instr.arity_of_target? {i : Instr} {k : Nat} {d : Arg} (h : i.target? = some (k, d)) : i.op.arity = k := by
  cases i <;> cases h <;> rfl

/-- An instruction that raises no fault, is no jump, does not halt and does not wait moves past its words (R64). -/
theorem Executes.ip_eq {s : State} {i : Instr} {r : StepResult} (h : Executes s i r) (hjt : i.op ≠ .jt)
    (hjf : i.op ≠ .jf) (hhlt : i.op ≠ .hlt) (hinp : i.op = .inp → s.inq ≠ []) :
    r.state.ip = s.ip + (1 + i.op.arity : Nat) := by
  cases h with
  | stores _ ht _ =>
    rw [Instr.arity_of_target? ht]
    rfl
  | jumps _ hop => exact absurd hop (not_or.2 ⟨hjt, hjf⟩)
  | waits _ hq => exact absurd hq (hinp rfl)
  | takes | emits | adjusts => rfl
  | halts => exact absurd rfl hhlt

/-- Settles O43: what does not jump by the cases of `Executes`, and the two jumps where they are not taken. -/
theorem completingAdvancesByTheLength : Obligations.CompletingAdvancesByTheLength := by
  unfold Obligations.CompletingAdvancesByTheLength
  intro i s t h hok
  refine ⟨fun hjt hjf hhlt hinp => ?_, ?_, ?_⟩
  · obtain ⟨f, rfl⟩ | ⟨r, hexec, rfl⟩ := exec_raises_or_executes h
    · exact absurd rfl (hok f)
    · exact hexec.ip_eq hjt hjf hhlt hinp
  · rintro a b rfl ha
    cases exec_next_iff.1 h
    exact jump_ip_of_untaken hok (by simp [testsTrue, ha])
  · rintro a b rfl ha
    cases exec_next_iff.1 h
    exact jump_ip_of_untaken hok (by simp [testsFalse, ha])

end Sys2Proof.Machine
end

section
/-! ## What ADD and MUL store (40_arith.md R90 to R92) -/

namespace Sys2Proof.Machine

/-- A store followed by the move past `n` words, as one update of the state. -/
theorem State.store_advance (s : State) (t : Nat) (v : Int) (n : Nat) :
    (s.store t v).advance n = { s with mem := Memory.write s.mem t v, ip := s.ip + n } := rfl

/-- What `result` gives, `exec` answers as a next state. -/
theorem exec_and_result_of_result {i : Instr} {s t : State} {e : Event} (h : result i s = ⟨e, t⟩) :
    exec i s = .next t ∧ result i s = ⟨e, t⟩ :=
  ⟨exec_next_iff.2 (congrArg StepResult.state h), h⟩

/-- The whole effect of an instruction of the R,R,W shape whose arguments can be evaluated: the cell `t` holds what `alu`
makes of the values before the write, and ip is past the four words (R80, R81). -/
theorem exec_and_result_of_binary {i : Instr} {s : State} {a b d : Arg} {t : Nat} {w : Int} {alu : Int → Int → Int}
    (hi : result i s = binary w a b d alu s) (ha : Arg.readable s a) (hb : Arg.readable s b) (hd : Arg.targets s d t) :
    let s' := { s with mem := Memory.write s.mem t (alu (Arg.value s a) (Arg.value s b)), ip := s.ip + 4 }
    exec i s = .next s' ∧ result i s = ⟨.continue, s'⟩ := by
  refine exec_and_result_of_result ?_
  rw [hi, binary_of_readable ha hb hd, State.store_advance]
  rfl

/-- Settles O20: ADD is the R,R,W shape whose `alu` is exact addition. -/
theorem addStoresTheSum : Obligations.AddStoresTheSum := by
  unfold Obligations.AddStoresTheSum
  intro a b d t s ha hb hd
  have hadd : result (.add a b d) s = binary (Instr.word (.add a b d)) a b d (fun v1 v2 => v1 + v2) s := rfl
  exact exec_and_result_of_binary hadd ha hb hd

/-- Settles O21: MUL is the R,R,W shape whose `alu` is exact multiplication. -/
theorem mulStoresTheProduct : Obligations.MulStoresTheProduct := by
  unfold Obligations.MulStoresTheProduct
  intro a b d t s ha hb hd
  have hmul : result (.mul a b d) s = binary (Instr.word (.mul a b d)) a b d (fun v1 v2 => v1 * v2) s := rfl
  exact exec_and_result_of_binary hmul ha hb hd

end Sys2Proof.Machine
end

section
/-! ## What IN and OUT do, and the retry of a waiting IN (41_io.md R100 and R101, 70_reset_and_hazards.md R188) -/

namespace Sys2Proof.Machine

/-- IN with a target and a value queued (R100). -/
theorem resultInp_of_queued {s : State} {d : Arg} {t : Nat} {x : Int} {rest : List Int} (hd : Arg.targets s d t)
    (hq : s.inq = x :: rest) : resultInp d s = .continue (((s.setInq rest).store t x).advance 2) := by
  rw [resultInp, writeArg_of_targets hd]
  simp only [hq]

/-- IN with a target and an empty queue (R100). -/
theorem resultInp_of_empty {s : State} {d : Arg} {t : Nat} (hd : Arg.targets s d t) (hq : s.inq = []) :
    resultInp d s = ⟨.needsInput, s⟩ := by
  rw [resultInp, writeArg_of_targets hd]
  simp only [hq]

/-- OUT with a readable argument (R101). -/
theorem resultOut_of_readable {s : State} {a : Arg} (ha : Arg.readable s a) :
    resultOut a s = ⟨.output (Arg.value s a), (s.setLastOut (Arg.value s a)).advance 2⟩ := by
  rw [resultOut, readArg_of_readable ha]

/-- Settles O24: the target is a cell and the queue has a head, so IN takes its completing branch. -/
theorem inputTakesTheOldestValue : Obligations.InputTakesTheOldestValue := by
  unfold Obligations.InputTakesTheOldestValue
  intro d t s x rest hd hq
  exact exec_and_result_of_result (resultInp_of_queued hd hq)

/-- Settles O25: the target is a cell and the queue is empty, so IN takes its waiting branch. -/
theorem inputWaitsOnAnEmptyQueue : Obligations.InputWaitsOnAnEmptyQueue := by
  unfold Obligations.InputWaitsOnAnEmptyQueue
  intro d t s hd hq
  exact exec_and_result_of_result (resultInp_of_empty hd hq)

/-- Settles O26: the argument is readable, so OUT emits its value. -/
theorem outputEmitsTheValue : Obligations.OutputEmitsTheValue := by
  unfold Obligations.OutputEmitsTheValue
  intro a s ha
  exact exec_and_result_of_result (resultOut_of_readable ha)

theorem resume_of_ready {s : State} (h : s.status = .ready) (n : Nat) (inp : Option Int) :
    resume n s inp = run n (s.supply inp) := by
  rw [resume, h]

/-- A call that supplies an input to an empty queue leaves that input alone in it (R165). -/
theorem State.supply_of_empty {s : State} (hq : s.inq = []) (x : Int) : s.supply (some x) = s.setInq [x] := by
  rw [State.supply, hq, List.nil_append]

/-- Fetch and decode do not look at the queue. -/
@[simp] theorem fetchDecode_setInq (s : State) (q : List Int) : fetchDecode (s.setInq q) = fetchDecode s := rfl

/-- IN stores the one value queued, and its queue is empty again (R100). -/
theorem resultInp_of_singleton {s : State} {d : Arg} {c : Nat} (hd : Arg.targets s d c) (hq : s.inq = []) (x : Int) :
    resultInp d (s.setInq [x]) = .continue { s with mem := Memory.write s.mem c x, ip := s.ip + 2 } := by
  have htargets : Arg.targets (s.setInq [x]) d c := hd
  have hrequeue : (s.setInq [x]).setInq [] = s := by rw [← hq]; rfl
  rw [resultInp_of_queued htargets (State.setInq_inq s [x]), hrequeue, State.store_advance]
  rfl

/-- Settles O57: the IN at ip waits on the empty queue, which ends the call, and takes the one value supplied, which
continues the run. -/
theorem retriedInputTakesTheSuppliedValue : Obligations.RetriedInputTakesTheSuppliedValue := by
  unfold Obligations.RetriedInputTakesTheSuppliedValue
  intro n s d c x hs hq hf hd
  refine ⟨?_, ?_⟩
  · have hcycle : cycle s = ⟨.needsInput, s⟩ := (cycle_of_instr hf).trans (resultInp_of_empty hd hq)
    have hends : (cycle s).event.ends? = some .needsInput := by rw [hcycle]; rfl
    calc resume (n + 1) s none = run (n + 1) s := resume_of_ready hs (n + 1) none
      _ = some (.needsInput, (cycle s).state) := run_succ_of_ends hends n
      _ = some (.needsInput, s) := by rw [hcycle]
  · have hcycle : cycle (s.setInq [x]) = .continue { s with mem := Memory.write s.mem c x, ip := s.ip + 2 } :=
      (cycle_of_instr ((fetchDecode_setInq s [x]).trans hf)).trans (resultInp_of_singleton hd hq x)
    have hends : (cycle (s.setInq [x])).event.ends? = none := by rw [hcycle]; rfl
    calc resume (n + 1) s (some x) = run (n + 1) (s.setInq [x]) := by
          rw [resume_of_ready hs, State.supply_of_empty hq]
      _ = run n (cycle (s.setInq [x])).state := run_succ_of_continues hends n
      _ = run n { s with mem := Memory.write s.mem c x, ip := s.ip + 2 } := by rw [hcycle]; rfl

end Sys2Proof.Machine
end

section
/-! ## Where JT and JF leave ip, and the jump to itself (42_jumps.md R110 and R111, 60_exceptions.md R170) -/

namespace Sys2Proof.Machine

/-- A jump's two outcomes, as one update of ip. -/
theorem State.setIp_or_advance (s : State) (c : Prop) [Decidable c] (v : Int) :
    (if c then s.setIp v else s.advance 3) = { s with ip := if c then v else s.ip + 3 } := by
  split <;> rfl

/-- The whole effect of an instruction of the R,R shape whose arguments can be evaluated: only ip changes (R80). -/
theorem exec_and_result_of_jump {i : Instr} {s : State} {a b : Arg} {w : Int} {taken : Int → Bool}
    (hi : result i s = jump w a b taken s) (ha : Arg.readable s a) (hb : Arg.readable s b) :
    let s' := { s with ip := if taken (Arg.value s a) then Arg.value s b else s.ip + 3 }
    exec i s = .next s' ∧ result i s = ⟨.continue, s'⟩ := by
  refine exec_and_result_of_result ?_
  rw [hi, jump_of_readable ha hb, State.setIp_or_advance]
  rfl

/-- Settles O27: JT is the R,R shape taken where the first value is not 0. -/
theorem jumpIfTrueSetsIp : Obligations.JumpIfTrueSetsIp := by
  unfold Obligations.JumpIfTrueSetsIp
  intro a b s ha hb
  have hjt : result (.jt a b) s = jump (Instr.word (.jt a b)) a b testsTrue s := rfl
  simpa only [testsTrue, decide_eq_true_iff] using exec_and_result_of_jump hjt ha hb

/-- Settles O28: JF is the R,R shape taken where the first value is 0. -/
theorem jumpIfFalseSetsIp : Obligations.JumpIfFalseSetsIp := by
  unfold Obligations.JumpIfFalseSetsIp
  intro a b s ha hb
  have hjf : result (.jf a b) s = jump (Instr.word (.jf a b)) a b testsFalse s := rfl
  simpa only [testsFalse, decide_eq_true_iff] using exec_and_result_of_jump hjf ha hb

/-- A taken jump to its own address leaves the whole state as it was. -/
theorem jump_to_itself {s : State} {a b : Arg} (ha : Arg.readable s a) (hb : Arg.readable s b)
    (hself : Arg.value s b = s.ip) {taken : Int → Bool} (ht : taken (Arg.value s a) = true) (w : Int) :
    jump w a b taken s = .continue s := by
  rw [jump_of_readable ha hb, if_pos ht, hself]
  rfl

/-- A cycle that leaves its state as it was is the next one too, so all the fuel is used up. -/
theorem run_of_cycle_fixed {s : State} (h : cycle s = .continue s) (n : Nat) : run n s = none := by
  have hgoes : (cycle s).event.ends? = none := by rw [h]; rfl
  induction n with
  | zero => rfl
  | succ n ih =>
    calc run (n + 1) s = run n (cycle s).state := run_succ_of_continues hgoes n
      _ = run n s := by rw [h]; rfl
      _ = none := ih

/-- A derivation of a run would end in a cycle that ends the run, and every cycle is the one that continues. -/
theorem not_runs_of_cycle_fixed {s t : State} {r : ResumeResult} (h : cycle s = .continue s) : ¬ Runs s r t := by
  intro hr
  induction hr with
  | stops hends =>
    rw [h] at hends
    cases hends
  | steps _ _ ih =>
    refine ih ?_
    rw [h]
    exact h

/-- Settles O58: the taken jump is a cycle that leaves its state as it was. -/
theorem jumpToItselfNeverReturns : Obligations.JumpToItselfNeverReturns := by
  unfold Obligations.JumpToItselfNeverReturns
  intro s a b ha hb hself hjump
  have hfixed : cycle s = .continue s := by
    obtain ⟨hf, hv⟩ | ⟨hf, hv⟩ := hjump
    · exact (cycle_of_instr hf).trans (jump_to_itself ha hb hself (by simpa [testsTrue] using hv) _)
    · exact (cycle_of_instr hf).trans (jump_to_itself ha hb hself (by simpa [testsFalse] using hv) _)
  exact ⟨run_of_cycle_fixed hfixed, fun _ _ => not_runs_of_cycle_fixed hfixed⟩

end Sys2Proof.Machine
end

section
/-! ## What LT and EQ store, and the jumps that test it (43_compare.md R120 to R122) -/

namespace Sys2Proof.Machine

theorem lessWord_eq (v1 v2 : Int) : lessWord v1 v2 = if v1 < v2 then 1 else 0 := by
  simp only [lessWord, truthWord, decide_eq_true_iff]

theorem equalWord_eq (v1 v2 : Int) : equalWord v1 v2 = if v1 = v2 then 1 else 0 := by
  simp only [equalWord, truthWord, decide_eq_true_iff]

/-- Settles O22: LT is the R,R,W shape whose `alu` is the exact signed comparison. -/
theorem lessThanStoresOneOrZero : Obligations.LessThanStoresOneOrZero := by
  unfold Obligations.LessThanStoresOneOrZero
  intro a b d t s ha hb hd
  have hlt : result (.lt a b d) s = binary (Instr.word (.lt a b d)) a b d lessWord s := rfl
  rw [← lessWord_eq]
  exact exec_and_result_of_binary hlt ha hb hd

/-- Settles O23: EQ is the R,R,W shape whose `alu` is the test for equality. -/
theorem equalsStoresOneOrZero : Obligations.EqualsStoresOneOrZero := by
  unfold Obligations.EqualsStoresOneOrZero
  intro a b d t s ha hb hd
  have heq : result (.eq a b d) s = binary (Instr.word (.eq a b d)) a b d equalWord s := rfl
  rw [← equalWord_eq]
  exact exec_and_result_of_binary heq ha hb hd

/-- A position argument on a cell's address can always be read (R46). -/
theorem Arg.readable_position (s : State) (c : Nat) : Arg.readable s ⟨.position, c⟩ := by
  simp [Arg.readable, Arg.address?]

/-- A position argument on a cell's address gives the word in that cell (R46). -/
theorem Arg.value_position (s : State) (c : Nat) : Arg.value s ⟨.position, c⟩ = s.load c := rfl

section Truth

variable {p : Prop} [Decidable p]

/-- A cell that holds 1 or 0 for the truth of `p` makes JT jump exactly if `p` holds (R110, R122). -/
theorem exec_jt_of_truth {t : State} {c : Nat} {g : Arg} (hc : t.load c = if p then 1 else 0)
    (hg : Arg.readable t g) :
    exec (.jt ⟨.position, c⟩ g) t = .next { t with ip := if p then Arg.value t g else t.ip + 3 } := by
  obtain ⟨hjt, -⟩ := jumpIfTrueSetsIp ⟨.position, c⟩ g t (Arg.readable_position t c) hg
  rw [hjt, Arg.value_position, hc]
  by_cases hp : p <;> simp [hp]

/-- A cell that holds 1 or 0 for the truth of `p` makes JF jump exactly if `p` fails (R111, R122). -/
theorem exec_jf_of_truth {t : State} {c : Nat} {g : Arg} (hc : t.load c = if p then 1 else 0)
    (hg : Arg.readable t g) :
    exec (.jf ⟨.position, c⟩ g) t = .next { t with ip := if p then t.ip + 3 else Arg.value t g } := by
  obtain ⟨hjf, -⟩ := jumpIfFalseSetsIp ⟨.position, c⟩ g t (Arg.readable_position t c) hg
  rw [hjf, Arg.value_position, hc]
  by_cases hp : p <;> simp [hp]

/-- An instruction that leaves 1 or 0 for the truth of `p` in a cell decides both jumps through that cell. -/
theorem jumps_driven_of_exec {i : Instr} {s : State} {c : Nat} {ip : Int} (hwf : Memory.wf s.mem)
    (hi : exec i s = .next { s with mem := Memory.write s.mem c (if p then 1 else 0), ip := ip }) (g : Arg) :
    ∃ t, exec i s = .next t ∧ t.load c = (if p then 1 else 0) ∧
      (Arg.readable t g →
        exec (.jt ⟨.position, c⟩ g) t = .next { t with ip := if p then Arg.value t g else t.ip + 3 } ∧
        exec (.jf ⟨.position, c⟩ g) t = .next { t with ip := if p then t.ip + 3 else Arg.value t g }) := by
  have hload : Memory.read (Memory.write s.mem c (if p then 1 else 0)) c = if p then 1 else 0 := by
    rw [Memory.read_write hwf, if_pos rfl]
  exact ⟨_, hi, hload, fun hg => ⟨exec_jt_of_truth hload hg, exec_jf_of_truth hload hg⟩⟩

end Truth

/-- Settles O32: O22 and O23 give the word each comparison leaves, and it decides the jumps. -/
theorem comparisonsDriveTheJumps : Obligations.ComparisonsDriveTheJumps := by
  unfold Obligations.ComparisonsDriveTheJumps
  intro a b d g c s hwf ha hb hd
  obtain ⟨hlt, -⟩ := lessThanStoresOneOrZero a b d c s ha hb hd
  obtain ⟨heq, -⟩ := equalsStoresOneOrZero a b d c s ha hb hd
  exact ⟨jumps_driven_of_exec hwf hlt g, jumps_driven_of_exec hwf heq g⟩

end Sys2Proof.Machine
end

section
/-! ## What ARB does, and what rb is read for (44_relbase.md R130 and R131) -/

namespace Sys2Proof.Machine

/-- ARB with a readable argument (R130). -/
theorem resultArb_of_readable {s : State} {a : Arg} (ha : Arg.readable s a) :
    resultArb a s = .continue ((s.setRb (s.rb + Arg.value s a)).advance 2) := by
  rw [resultArb, readArg_of_readable ha]

/-- Settles O29: the argument is readable, so ARB adds its value, read at the old rb. -/
theorem adjustAddsToTheBase : Obligations.AdjustAddsToTheBase := by
  unfold Obligations.AdjustAddsToTheBase
  intro a s ha
  exact exec_and_result_of_result (resultArb_of_readable ha)

theorem Instr.eq_arb_of_op {i : Instr} (h : i.op = .arb) : ∃ a, i = .arb a := by
  cases i with
  | arb a => exact ⟨a, rfl⟩
  | add | mul | inp | out | jt | jf | lt | eq | hlt => cases h

/-- A step that changes rb ran ARB: a fault keeps rb, and so does every other instruction. -/
theorem fetchDecode_of_step_changes_rb {s t : State} (hstep : step s = .next t) (hrb : t.rb ≠ s.rb) :
    ∃ a, fetchDecode s = .ok (.arb a) := by
  obtain ⟨-, ⟨f, -, rfl⟩ | ⟨i, hi, hexec⟩⟩ := step_cases hstep
  · exact absurd rfl hrb
  · obtain ⟨hframe, -⟩ := registersChangeOnlyUnderTheirInstruction i s t hexec
    obtain ⟨a, rfl⟩ := Instr.eq_arb_of_op (not_imp_comm.1 hframe hrb)
    exact ⟨a, hi⟩

/-- An argument that is not relative computes the same address at every rb (R46, R47). -/
theorem Arg.address?_of_not_relative {a : Arg} (h : a.mode ≠ .relative) (rb rb' : Int) :
    Arg.address? rb a = Arg.address? rb' a := by
  obtain ⟨m, raw⟩ := a
  cases m with
  | position | immediate => rfl
  | relative => exact absurd rfl h

/-- The result `q` of a step from `s`, moved to the base `r`: the same event, and the same state but for an rb that lies
as far from `r` as `q`'s does from that of `s`. -/
def StepResult.rebase (s : State) (r : Int) (q : StepResult) : StepResult :=
  ⟨q.event, q.state.setRb (r + (q.state.rb - s.rb))⟩

/-- Where rb is kept, a result is moved to the base `r` by setting rb. -/
theorem StepResult.eq_rebase {s : State} {r : Int} {q q' : StepResult} (hrb : q.state.rb = s.rb)
    (hq : q' = ⟨q.event, q.state.setRb r⟩) : q' = q.rebase s r := by
  rw [hq, rebase, hrb, sub_self, add_zero]

section NotRelative

variable {a b d : Arg} (ha : a.mode ≠ .relative) (hb : b.mode ≠ .relative) (hd : d.mode ≠ .relative)
  (s : State) (r w : Int)

include ha in
theorem readArg_setRb (k : Nat) : readArg (s.setRb r) w k a = readArg s w k a := by
  rw [readArg, State.setRb_rb, Arg.address?_of_not_relative ha r s.rb]
  rfl

include hd in
theorem writeArg_setRb (k : Nat) : writeArg (s.setRb r) w k d = writeArg s w k d := by
  rw [writeArg, State.setRb_rb, Arg.address?_of_not_relative hd r s.rb]
  rfl

include ha hb in
theorem evalRR_setRb : evalRR (s.setRb r) w a b = evalRR s w a b := by
  simp only [evalRR, readArg_setRb ha, readArg_setRb hb]

include ha hb hd in
theorem evalRRW_setRb : evalRRW (s.setRb r) w a b d = evalRRW s w a b d := by
  simp only [evalRRW, checkTarget, State.setRb_ip, evalRR_setRb ha hb, writeArg_setRb hd]

include ha hb hd in
theorem binary_setRb (alu : Int → Int → Int) :
    binary w a b d alu (s.setRb r) = (binary w a b d alu s).rebase s r := by
  rw [binary, binary, evalRRW_setRb ha hb hd]
  cases evalRRW s w a b d with
  | error | ok => exact StepResult.eq_rebase rfl rfl

include ha hb in
theorem jump_setRb (taken : Int → Bool) : jump w a b taken (s.setRb r) = (jump w a b taken s).rebase s r := by
  rw [jump, jump, evalRR_setRb ha hb]
  cases evalRR s w a b with
  | error f => exact StepResult.eq_rebase rfl rfl
  | ok v =>
    dsimp only
    split
    · exact StepResult.eq_rebase rfl rfl
    · exact StepResult.eq_rebase rfl rfl

include hd in
theorem resultInp_setRb : resultInp d (s.setRb r) = (resultInp d s).rebase s r := by
  rw [resultInp, resultInp, writeArg_setRb hd]
  cases writeArg s (Instr.word (.inp d)) 1 d with
  | error f => exact StepResult.eq_rebase rfl rfl
  | ok t =>
    simp only [State.setRb_inq]
    cases s.inq with
    | nil | cons => exact StepResult.eq_rebase rfl rfl

include ha in
theorem resultOut_setRb : resultOut a (s.setRb r) = (resultOut a s).rebase s r := by
  rw [resultOut, resultOut, readArg_setRb ha]
  cases readArg s (Instr.word (.out a)) 1 a with
  | error | ok => exact StepResult.eq_rebase rfl rfl

include ha in
/-- ARB alone moves rb, and by the value read, which is the same at both bases. -/
theorem resultArb_setRb : resultArb a (s.setRb r) = (resultArb a s).rebase s r := by
  rw [resultArb, resultArb, readArg_setRb ha]
  cases readArg s (Instr.word (.arb a)) 1 a with
  | error f => exact StepResult.eq_rebase rfl rfl
  | ok v =>
    have hmoved : r + (s.rb + v - s.rb) = r + v := by rw [add_sub_cancel_left]
    exact congrArg (fun rb => StepResult.continue ((s.setRb rb).advance 2)) hmoved.symm

end NotRelative

/-- An instruction without a relative argument does the same at every rb, event included (R131). -/
theorem result_setRb {i : Instr} (h : ∀ a ∈ i.args, a.mode ≠ .relative) (s : State) (r : Int) :
    result i (s.setRb r) = (result i s).rebase s r := by
  cases i with
  | add a b d | mul a b d | lt a b d | eq a b d =>
    simp only [Instr.args, List.forall_mem_cons] at h
    obtain ⟨ha, hb, hd, -⟩ := h
    exact binary_setRb ha hb hd ..
  | jt a b | jf a b =>
    simp only [Instr.args, List.forall_mem_cons] at h
    obtain ⟨ha, hb, -⟩ := h
    exact jump_setRb ha hb ..
  | inp d => exact resultInp_setRb (h d List.mem_cons_self) s r
  | out a => exact resultOut_setRb (h a List.mem_cons_self) s r
  | arb a => exact resultArb_setRb (h a List.mem_cons_self) s r
  | hlt => exact StepResult.eq_rebase rfl rfl

/-- Settles O41: ARB is the one instruction that changes rb, and where no argument is relative the result at another rb
is the result moved there. -/
theorem onlyAdjustWritesTheBaseAndOnlyRelativeReadsIt :
    Obligations.OnlyAdjustWritesTheBaseAndOnlyRelativeReadsIt := by
  unfold Obligations.OnlyAdjustWritesTheBaseAndOnlyRelativeReadsIt
  refine ⟨fun s t => fetchDecode_of_step_changes_rb, fun i s t r hargs hexec => ?_⟩
  cases exec_next_iff.1 hexec
  exact exec_next_iff.2 (congrArg StepResult.state (result_setRb hargs s r))

end Sys2Proof.Machine
end

section
/-! ## What HLT does, and the one word that halts (45_halt.md R140 and R141, 30_encoding.md R73) -/

namespace Sys2Proof.Machine

/-- Settles O30: HLT writes the status alone, so the frame clauses are the field lemmas of `setStatus`. -/
theorem haltSetsTheStatus : Obligations.HaltSetsTheStatus := by
  unfold Obligations.HaltSetsTheStatus
  intro s
  obtain ⟨hexec, hresult⟩ := exec_and_result_of_result (i := .hlt) (s := s) (t := s.setStatus .halted) rfl
  exact ⟨_, hexec, hresult, State.setStatus_status .., State.setStatus_mem .., State.setStatus_rb ..,
    State.setStatus_inq .., State.setStatus_lastOut ..⟩

/-- The word at ip is the word of the instruction fetched there (R73, R75, R78). -/
theorem load_ip_of_fetchDecode {s : State} {i : Instr} (h : fetchDecode s = .ok i) :
    0 ≤ s.ip ∧ s.load s.ip.toNat = i.word := by
  obtain ⟨-, hf⟩ | ⟨-, e, -, hf⟩ | ⟨hip, hd, hok, hf⟩ := fetchDecode_cases s
  · cases hf.symm.trans h
  · cases hf.symm.trans h
  · cases hf.symm.trans h
    exact ⟨hip, (word_build hok _).symm⟩

/-- HLT has one word, 99, so it is fetched exactly where that word stands (R73, R141). -/
theorem fetchDecode_eq_hlt_iff {s : State} : fetchDecode s = .ok .hlt ↔ 0 ≤ s.ip ∧ s.load s.ip.toNat = 99 := by
  refine ⟨load_ip_of_fetchDecode, fun ⟨hip, hload⟩ => fetchDecode_of_decodeAt hip (decodeAt_of_encode rfl ?_)⟩
  intro k w hw
  cases k with
  | zero =>
    cases hw
    exact hload
  | succ k => cases hw

/-- Settles O46: a step that halts fetched HLT, a fetched HLT halts, and HLT is fetched exactly at the word 99. -/
theorem onlyTheWord99Halts : Obligations.OnlyTheWord99Halts := by
  unfold Obligations.OnlyTheWord99Halts
  intro s hready
  rw [← fetchDecode_eq_hlt_iff]
  constructor
  · rintro ⟨t, hstep, ht⟩
    obtain ⟨-, rfl⟩ := step_next_iff.1 hstep
    exact fetchDecode_of_cycle_halts hready ht
  · intro hhlt
    obtain ⟨t, hexec, -, ht, -⟩ := haltSetsTheStatus s
    exact ⟨t, (step_of_instr hready hhlt).trans hexec, ht⟩

end Sys2Proof.Machine
end

section
/-! ## The host port: the loop under fuel and without it, and what a call keeps (60_exceptions.md R152, R165 to R170) -/

namespace Sys2Proof.Machine

/-- Continue is the one event that ends no call (R166). -/
theorem Event.ends?_eq_none_iff {e : Event} : e.ends? = none ↔ e = .continue := by
  cases e <;> simp [Event.ends?]

theorem Runs.of_run {n : Nat} {s t : State} {r : ResumeResult} (h : run n s = some (r, t)) : Runs s r t := by
  induction n generalizing s with
  | zero => cases h
  | succ n ih =>
    cases he : (cycle s).event.ends? with
    | some q =>
      rw [run_succ_of_ends he] at h
      cases h
      exact .stops he
    | none =>
      rw [run_succ_of_continues he] at h
      exact .steps (Event.ends?_eq_none_iff.1 he) (ih h)

/-- The fuel needed is one unit for each cycle of the derivation. -/
theorem Runs.exists_run {s t : State} {r : ResumeResult} (h : Runs s r t) : ∃ n, run n s = some (r, t) := by
  induction h with
  | stops he => exact ⟨1, run_succ_of_ends he 0⟩
  | steps hc _ ih =>
    obtain ⟨n, hn⟩ := ih
    exact ⟨n + 1, (run_succ_of_continues (Event.ends?_eq_none_iff.2 hc) n).trans hn⟩

/-- Settles O54, by induction on the fuel one way and on the derivation of the run the other. -/
theorem fuelOnlyBoundsTheRun : Obligations.FuelOnlyBoundsTheRun := by
  unfold Obligations.FuelOnlyBoundsTheRun
  exact fun _ _ _ => ⟨fun ⟨_, h⟩ => .of_run h, Runs.exists_run⟩

/-- Every cycle of a run starts in status Ready, so every one keeps the invariant. -/
theorem Runs.inv {s t : State} {r : ResumeResult} (h : Runs s r t) (hs : s.status = .ready) (hinv : State.Inv s) :
    State.Inv t := by
  induction h with
  | stops _ => exact cycle_inv hs hinv
  | steps hc _ ih => exact ih (cycle_ready_of_continues hs (Event.ends?_eq_none_iff.2 hc)) (cycle_inv hs hinv)

@[simp] theorem State.supply_status (s : State) (inp : Option Int) : (s.supply inp).status = s.status := by
  cases inp <;> rfl

/-- The invariant says nothing of the queue, so an input keeps it (R165). -/
theorem State.Inv.supply {s : State} (h : State.Inv s) (inp : Option Int) : State.Inv (s.supply inp) := by
  cases inp <;> exact h

theorem resume_of_faulted {s : State} {f : FaultRecord} (h : s.status = .faulted f) (n : Nat) (inp : Option Int) :
    resume n s inp = some (.fault f, s) := by
  simp [resume, h]

/-- Settles O50: a call on a stopped instance returns the state it was given, and one on a Ready instance runs from
it with the input appended. -/
theorem hostCallKeepsTheInvariant : Obligations.HostCallKeepsTheInvariant := by
  unfold Obligations.HostCallKeepsTheInvariant
  intro n s t inp r hinv hcall
  cases hs : s.status with
  | ready =>
    rw [resume_of_ready hs] at hcall
    exact (Runs.of_run hcall).inv ((State.supply_status s inp).trans hs) (hinv.supply inp)
  | halted =>
    rw [resume_of_halted hs] at hcall
    cases hcall
    exact hinv
  | faulted f =>
    rw [resume_of_faulted hs] at hcall
    cases hcall
    exact hinv

/-- Settles O52, one clause for each status that rejects a call. -/
theorem stoppedInstanceRejectsCalls : Obligations.StoppedInstanceRejectsCalls := by
  unfold Obligations.StoppedInstanceRejectsCalls
  exact fun n _ inp => ⟨fun h => resume_of_halted h n inp, fun _ h => resume_of_faulted h n inp⟩

/-- Settles O53: a call on a Ready instance runs from what `supply` makes of the state. -/
theorem callAppendsAtTheTail : Obligations.CallAppendsAtTheTail := by
  unfold Obligations.CallAppendsAtTheTail
  exact fun n _ x hs => ⟨resume_of_ready hs n (some x), resume_of_ready hs n none⟩

end Sys2Proof.Machine
end

section
/-! ## Construction and the empty image (20_memory.md R41, 70_reset_and_hazards.md R180, R185) -/

namespace Sys2Proof.Machine

/-- Reset lists no cell, so every address reads as one never written (R41). -/
@[simp] theorem State.reset_load (a : Nat) : State.reset.load a = 0 := Memory.read_nil a

/-- No operation has the code 0, so a cell never written holds no instruction (R69, R185). -/
theorem decodeHead_zero : decodeHead 0 = .error .unknownOpcode := by
  refine decodeHead_of_no_code (n := 0) fun o => ?_
  cases o <;> decide

/-- Settles O38: reset lists what the empty image lists, and the word its first step fetches is one never written, which
the decoder refuses. -/
theorem emptyImageFaultsAtItsFirstStep : Obligations.EmptyImageFaultsAtItsFirstStep := by
  unfold Obligations.EmptyImageFaultsAtItsFirstStep
  have hrefused : decodeHead (State.reset.load State.reset.ip.toNat) = .error .unknownOpcode := by
    rw [State.reset_load, decodeHead_zero]
  exact ⟨rfl, step_of_fault rfl (fetchDecode_of_refused le_rfl hrefused)⟩

/-- Settles O48: writing the image's words one by one into the empty memory keeps its canonical form, and construction
leaves reset's status Ready, which is explained of any state. -/
theorem invariantHoldsAtConstruction : Obligations.InvariantHoldsAtConstruction := by
  unfold Obligations.InvariantHoldsAtConstruction
  exact fun image => ⟨State.construct_mem_wf image, trivial⟩

end Sys2Proof.Machine
end
